-- ==== Sys2Proof/Word.lean ====
section
/-! DEFINITION. The value types of the CORE: bytes, 16-bit words, and the register and key indices (00_scope.md R6, R7; 10_state.md R20, R22, R24). -/

namespace Sys2Proof

/-- One memory byte, or one general register's value (R20, R50). -/
abbrev Byte := BitVec 8

/-- An instruction word, or the value of `pc`, `I` or a stack entry (R24, R26, R27, R70). -/
abbrev Word := BitVec 16

/-- The index of a general register, 0 to 15; index 15 is VF (R20 to R22). -/
abbrev Reg := Fin 16

/-- The flag register's index (R5 `FLAG_REG`, R21). -/
abbrev VF : Reg := 15

/-- The code of a key, 0x0 to 0xF (R32). -/
abbrev Key := Fin 16

end Sys2Proof
end

