-- ==== Sys2Proof/Config.lean ====
section
/-! DEFINITION. What the implementation fixes (00_scope.md R5 and the named parameters of 92_eei_decisions.md), and the one free value, the random byte (R227). -/

namespace Sys2Proof

/-- The two readings of SUBN's flag that `P_SUBN_VF` chooses between (41_alu.md R139). -/
inductive SubnVf where
  /-- VF = 1 exactly when Vy <= Vx, SUB's comparison: the value this hardware takes. -/
  | sameAsSub
  /-- VF = 1 exactly when Vx <= Vy, the no-borrow flag of Vy - Vx: the alternative reading. -/
  | noBorrow
  deriving DecidableEq, Repr

/-- `P_SUBN_VF` with the value this hardware takes (R5, R139; the spec's decision D7, log 11). -/
def Config.subnVf : SubnVf := .sameAsSub

/-- `P_STACK_DEPTH`, the call stack's capacity (R5, R27; the spec's decision D10, log 10). -/
def Config.stackDepth : Nat := 16

/-- `ROM_BASE`, where the program image is loaded and execution begins (R5, R39, R251). -/
def Config.romBase : Nat := 0x200

/-- `ROM_MAX`, the longest program image (R5, R56). -/
def Config.romMax : Nat := 3584

/-- `P_FONT`, the 80 font bytes, five for each digit 0 to F. The source names the standard bitmaps and
not their values; these are the spec's default table (R55). PRESUMED, log 6. -/
def Config.font : List Byte :=
  [0xF0, 0x90, 0x90, 0x90, 0xF0] ++ [0x20, 0x60, 0x20, 0x20, 0x70] ++
  [0xF0, 0x10, 0xF0, 0x80, 0xF0] ++ [0xF0, 0x10, 0xF0, 0x10, 0xF0] ++
  [0x90, 0x90, 0xF0, 0x10, 0x10] ++ [0xF0, 0x80, 0xF0, 0x10, 0xF0] ++
  [0xF0, 0x80, 0xF0, 0x90, 0xF0] ++ [0xF0, 0x10, 0x20, 0x40, 0x40] ++
  [0xF0, 0x90, 0xF0, 0x90, 0xF0] ++ [0xF0, 0x90, 0xF0, 0x10, 0xF0] ++
  [0xF0, 0x90, 0xF0, 0x90, 0x90] ++ [0xE0, 0x90, 0xE0, 0x90, 0xE0] ++
  [0xF0, 0x80, 0x80, 0x80, 0xF0] ++ [0xE0, 0x90, 0x90, 0x90, 0xE0] ++
  [0xF0, 0x80, 0xF0, 0x80, 0xF0] ++ [0xF0, 0x80, 0xF0, 0x80, 0x80]

/-- The random-byte source: what the `n`-th draw of a run returns. A FREE VALUE with no body: any
byte, under no law (R142, R227; the spec's decision D24, log 8). -/
opaque Config.randomByte : Nat → Byte

end Sys2Proof
end

