-- ==== Sys2Proof/Syntax.lean ====
section
/-! DEFINITION. The instructions: one constructor of Instr for each of the 35 rows of the decode table (30_encoding.md R76), the opcode kinds, the six operand formats (R73) and the shape of a descriptor and of an operand encoding (R72, R75). -/

namespace Sys2Proof

/-- A decoded instruction, in the order of the decode table (R76). Operands are already extracted:
`x`, `y` register indices, `nnn` a 12-bit address, `kk` a byte, `n` a nibble (R71). -/
inductive Instr where
  /-- Row 0, the `Invalid` sentinel; it keeps the word that matched no other row (R78, R100). -/
  | invalid (w : Word)
  /-- Row 1, `CLS` (R101). -/
  | cls
  /-- Row 2, `RET` (R102). -/
  | ret
  /-- Row 3, `JP nnn` (R103). -/
  | jp (nnn : BitVec 12)
  /-- Row 4, `CALL nnn` (R104). -/
  | call (nnn : BitVec 12)
  /-- Row 5, `SE Vx, kk` (R105). -/
  | seImm (x : Reg) (kk : Byte)
  /-- Row 6, `SNE Vx, kk` (R106). -/
  | sneImm (x : Reg) (kk : Byte)
  /-- Row 7, `SE Vx, Vy` (R107). -/
  | seReg (x y : Reg)
  /-- Row 8, `SNE Vx, Vy` (R108). -/
  | sneReg (x y : Reg)
  /-- Row 9, `LD Vx, kk` (R131). -/
  | ldImm (x : Reg) (kk : Byte)
  /-- Row 10, `ADD Vx, kk` (R132). -/
  | addImm (x : Reg) (kk : Byte)
  /-- Row 11, `LD Vx, Vy` (R133). -/
  | ldReg (x y : Reg)
  /-- Row 12, `OR Vx, Vy` (R134). -/
  | orReg (x y : Reg)
  /-- Row 13, `AND Vx, Vy` (R135). -/
  | andReg (x y : Reg)
  /-- Row 14, `XOR Vx, Vy` (R136). -/
  | xorReg (x y : Reg)
  /-- Row 15, `ADD Vx, Vy` (R137). -/
  | addReg (x y : Reg)
  /-- Row 16, `SUB Vx, Vy` (R138). -/
  | sub (x y : Reg)
  /-- Row 17, `SUBN Vx, Vy` (R139). -/
  | subn (x y : Reg)
  /-- Row 18, `SHR Vx, Vy`; `y` is decoded and not read (R140). -/
  | shr (x y : Reg)
  /-- Row 19, `SHL Vx, Vy`; `y` is decoded and not read (R141). -/
  | shl (x y : Reg)
  /-- Row 20, `LD I, nnn` (R160). -/
  | ldI (nnn : BitVec 12)
  /-- Row 21, `JP V0, nnn`: decoded, without a handler (R109). -/
  | jpV0 (nnn : BitVec 12)
  /-- Row 22, `RND Vx, kk` (R142). -/
  | rnd (x : Reg) (kk : Byte)
  /-- Row 23, `DRW Vx, Vy, n` (R180). -/
  | drw (x y : Reg) (n : BitVec 4)
  /-- Row 24, `SKP Vx` (R181). -/
  | skp (x : Reg)
  /-- Row 25, `SKNP Vx` (R182). -/
  | sknp (x : Reg)
  /-- Row 26, `LD Vx, DT` (R183). -/
  | ldVxDt (x : Reg)
  /-- Row 27, `LD Vx, K` (R184). -/
  | ldVxK (x : Reg)
  /-- Row 28, `LD DT, Vx` (R185). -/
  | ldDtVx (x : Reg)
  /-- Row 29, `LD ST, Vx` (R186). -/
  | ldStVx (x : Reg)
  /-- Row 30, `ADD I, Vx` (R161). -/
  | addI (x : Reg)
  /-- Row 31, `LD F, Vx` (R162). -/
  | ldF (x : Reg)
  /-- Row 32, `LD B, Vx` (R163). -/
  | ldB (x : Reg)
  /-- Row 33, `LD [I], Vx` (R164). -/
  | stRegs (x : Reg)
  /-- Row 34, `LD Vx, [I]` (R165). -/
  | ldRegs (x : Reg)
  deriving DecidableEq, Repr

/-- The opcode kinds: the source's classified instruction kinds, one for each descriptor (R76). -/
inductive Opcode where
  | invalid | cls | ret | jp | call | seImm | sneImm | seReg | sneReg | ldImm | addImm | ldReg
  | orReg | andReg | xorReg | addReg | sub | subn | shr | shl | ldI | jpV0 | rnd | drw | skp | sknp
  | ldVxDt | ldVxK | ldDtVx | ldStVx | addI | ldF | ldB | stRegs | ldRegs
  deriving DecidableEq, Repr

/-- The kind of an instruction (R76). -/
def Instr.opcode : Instr → Opcode
  | .invalid _ => .invalid
  | .cls => .cls
  | .ret => .ret
  | .jp _ => .jp
  | .call _ => .call
  | .seImm _ _ => .seImm
  | .sneImm _ _ => .sneImm
  | .seReg _ _ => .seReg
  | .sneReg _ _ => .sneReg
  | .ldImm _ _ => .ldImm
  | .addImm _ _ => .addImm
  | .ldReg _ _ => .ldReg
  | .orReg _ _ => .orReg
  | .andReg _ _ => .andReg
  | .xorReg _ _ => .xorReg
  | .addReg _ _ => .addReg
  | .sub _ _ => .sub
  | .subn _ _ => .subn
  | .shr _ _ => .shr
  | .shl _ _ => .shl
  | .ldI _ => .ldI
  | .jpV0 _ => .jpV0
  | .rnd _ _ => .rnd
  | .drw _ _ _ => .drw
  | .skp _ => .skp
  | .sknp _ => .sknp
  | .ldVxDt _ => .ldVxDt
  | .ldVxK _ => .ldVxK
  | .ldDtVx _ => .ldDtVx
  | .ldStVx _ => .ldStVx
  | .addI _ => .addI
  | .ldF _ => .ldF
  | .ldB _ => .ldB
  | .stRegs _ => .stRegs
  | .ldRegs _ => .ldRegs

/-- The six operand formats (R73). -/
inductive Format where
  | none | nnn | xkk | xy | xyn | x
  deriving DecidableEq, Repr

/-- An operand encoding: the mask and shift of each register field, the mask of the address and the
mask of the immediate, which have no shift (R72). -/
structure OperandEncoding where
  xmask : Word
  xshift : Nat
  ymask : Word
  yshift : Nat
  amask : Word
  imask : Word
  deriving DecidableEq, Repr

/-- What the extractor yields; a field the format lacks is zero (R72). -/
structure DecodedOperands where
  regX : Reg
  regY : Reg
  address : BitVec 12
  immediate : Byte
  deriving DecidableEq, Repr

/-- A descriptor of the decode table (R75, R76). -/
structure Descriptor where
  opcode : Opcode
  code : Word
  mask : Word
  format : Format
  deriving DecidableEq, Repr

end Sys2Proof
end

