-- ==== Sys2Proof/WellFormed.lean ====
section
/-! DEFINITION. Which instruction terms stand for some word: every operand range is in the operand's type but one, the word kept by Invalid, which must be one of the invalid words that 30_encoding.md R78 lists class by class. -/

namespace Sys2Proof

/-- R78's table of the words that no row 1 to 34 matches, by the class nibble `w[15:12]`, the low
nibble and the low byte. It is written from R78 and not from the decode table. -/
def invalidWord (w : Word) : Bool :=
  let class4 := w.extractLsb 15 12
  let n := w.extractLsb 3 0
  let kk := w.extractLsb 7 0
  if class4 == 0x0#4 then w != 0x00E0#16 && w != 0x00EE#16
  else if class4 == 0x5#4 then n != 0x0#4
  else if class4 == 0x8#4 then [0x8#4, 0x9#4, 0xA#4, 0xB#4, 0xC#4, 0xD#4, 0xF#4].contains n
  else if class4 == 0x9#4 then n != 0x0#4
  else if class4 == 0xE#4 then !([0x9E#8, 0xA1#8].contains kk)
  else if class4 == 0xF#4 then
    !([0x07#8, 0x0A#8, 0x15#8, 0x18#8, 0x1E#8, 0x29#8, 0x33#8, 0x55#8, 0x65#8].contains kk)
  else false

/-- An instruction is well formed when some word decodes to it: any instruction of rows 1 to 34, and
`Invalid` with one of R78's words. -/
def Instr.wellFormed : Instr → Bool
  | .invalid w => invalidWord w
  | .cls | .ret | .jp _ | .call _ | .seImm _ _ | .sneImm _ _ | .seReg _ _ | .sneReg _ _
  | .ldImm _ _ | .addImm _ _ | .ldReg _ _ | .orReg _ _ | .andReg _ _ | .xorReg _ _ | .addReg _ _
  | .sub _ _ | .subn _ _ | .shr _ _ | .shl _ _ | .ldI _ | .jpV0 _ | .rnd _ _ | .drw _ _ _
  | .skp _ | .sknp _ | .ldVxDt _ | .ldVxK _ | .ldDtVx _ | .ldStVx _ | .addI _ | .ldF _ | .ldB _
  | .stRegs _ | .ldRegs _ => true

end Sys2Proof
end

