-- ==== Sys2Proof/Decode.lean ====
section
/-! DEFINITION. The decoder and the encoder, both written from 30_encoding.md: the decode table in its given order (R76), the first-match scan with the Invalid fallback (R75), operand extraction (R72, R73), the byte-level decoder, and the encoder of each format. -/

namespace Sys2Proof

/-- The masks and shifts of the six formats (R73). -/
def Format.encoding : Format → OperandEncoding
  | .none => ⟨0x0000, 0, 0x0000, 0, 0x0000, 0x0000⟩
  | .nnn => ⟨0x0000, 0, 0x0000, 0, 0x0FFF, 0x0000⟩
  | .xkk => ⟨0x0F00, 8, 0x0000, 0, 0x0000, 0x00FF⟩
  | .xy => ⟨0x0F00, 8, 0x00F0, 4, 0x0000, 0x0000⟩
  | .xyn => ⟨0x0F00, 8, 0x00F0, 4, 0x0000, 0x000F⟩
  | .x => ⟨0x0F00, 8, 0x0000, 0, 0x0000, 0x0000⟩

/-- A register field: mask, then right shift (R72). -/
def regField (w mask : Word) (shift : Nat) : Reg :=
  Fin.ofNat 16 ((w &&& mask) >>> shift).toNat

/-- Operand extraction: pure and total (R72). -/
def extract (e : OperandEncoding) (w : Word) : DecodedOperands where
  regX := regField w e.xmask e.xshift
  regY := regField w e.ymask e.yshift
  address := (w &&& e.amask).setWidth 12
  immediate := (w &&& e.imask).setWidth 8

/-- The decode table in priority order (R76). The codes and masks that the source does not print are
the standard map of the family (the spec's decisions D2, D3; PRESUMED, log 7). -/
def decodeTable : List Descriptor :=
  [⟨.invalid, 0x0000, 0xFFFF, .none⟩, ⟨.cls, 0x00E0, 0xFFFF, .none⟩, ⟨.ret, 0x00EE, 0xFFFF, .none⟩,
   ⟨.jp, 0x1000, 0xF000, .nnn⟩, ⟨.call, 0x2000, 0xF000, .nnn⟩, ⟨.seImm, 0x3000, 0xF000, .xkk⟩,
   ⟨.sneImm, 0x4000, 0xF000, .xkk⟩, ⟨.seReg, 0x5000, 0xF00F, .xy⟩, ⟨.sneReg, 0x9000, 0xF00F, .xy⟩] ++
  [⟨.ldImm, 0x6000, 0xF000, .xkk⟩, ⟨.addImm, 0x7000, 0xF000, .xkk⟩, ⟨.ldReg, 0x8000, 0xF00F, .xy⟩,
   ⟨.orReg, 0x8001, 0xF00F, .xy⟩, ⟨.andReg, 0x8002, 0xF00F, .xy⟩, ⟨.xorReg, 0x8003, 0xF00F, .xy⟩,
   ⟨.addReg, 0x8004, 0xF00F, .xy⟩, ⟨.sub, 0x8005, 0xF00F, .xy⟩, ⟨.subn, 0x8007, 0xF00F, .xy⟩,
   ⟨.shr, 0x8006, 0xF00F, .xy⟩, ⟨.shl, 0x800E, 0xF00F, .xy⟩] ++
  [⟨.ldI, 0xA000, 0xF000, .nnn⟩, ⟨.jpV0, 0xB000, 0xF000, .nnn⟩, ⟨.rnd, 0xC000, 0xF000, .xkk⟩,
   ⟨.drw, 0xD000, 0xF000, .xyn⟩, ⟨.skp, 0xE09E, 0xF0FF, .x⟩, ⟨.sknp, 0xE0A1, 0xF0FF, .x⟩,
   ⟨.ldVxDt, 0xF007, 0xF0FF, .x⟩, ⟨.ldVxK, 0xF00A, 0xF0FF, .x⟩, ⟨.ldDtVx, 0xF015, 0xF0FF, .x⟩,
   ⟨.ldStVx, 0xF018, 0xF0FF, .x⟩, ⟨.addI, 0xF01E, 0xF0FF, .x⟩, ⟨.ldF, 0xF029, 0xF0FF, .x⟩,
   ⟨.ldB, 0xF033, 0xF0FF, .x⟩, ⟨.stRegs, 0xF055, 0xF0FF, .x⟩, ⟨.ldRegs, 0xF065, 0xF0FF, .x⟩]

/-- The sentinel, row 0 and the fallback of the scan (R75). -/
def invalidDescriptor : Descriptor := ⟨.invalid, 0x0000, 0xFFFF, .none⟩

/-- A word matches a descriptor when its masked bits are the code (R75). -/
def Descriptor.matchesWord (d : Descriptor) (w : Word) : Bool := w &&& d.mask == d.code

/-- The scan: the first descriptor that matches, in order, else the sentinel (R75). -/
def scan : List Descriptor → Word → Descriptor
  | [], _ => invalidDescriptor
  | d :: ds, w => if d.matchesWord w then d else scan ds w

/-- The instruction of a kind with its extracted operands; a kind takes the operands its format gives
meaning to (R73). `Invalid` keeps the word for the fault it raises (R100). -/
def Opcode.instr (k : Opcode) (o : DecodedOperands) (w : Word) : Instr :=
  match k with
  | .invalid => .invalid w
  | .cls => .cls
  | .ret => .ret
  | .jp => .jp o.address
  | .call => .call o.address
  | .seImm => .seImm o.regX o.immediate
  | .sneImm => .sneImm o.regX o.immediate
  | .seReg => .seReg o.regX o.regY
  | .sneReg => .sneReg o.regX o.regY
  | .ldImm => .ldImm o.regX o.immediate
  | .addImm => .addImm o.regX o.immediate
  | .ldReg => .ldReg o.regX o.regY
  | .orReg => .orReg o.regX o.regY
  | .andReg => .andReg o.regX o.regY
  | .xorReg => .xorReg o.regX o.regY
  | .addReg => .addReg o.regX o.regY
  | .sub => .sub o.regX o.regY
  | .subn => .subn o.regX o.regY
  | .shr => .shr o.regX o.regY
  | .shl => .shl o.regX o.regY
  | .ldI => .ldI o.address
  | .jpV0 => .jpV0 o.address
  | .rnd => .rnd o.regX o.immediate
  | .drw => .drw o.regX o.regY (o.immediate.setWidth 4)
  | .skp => .skp o.regX
  | .sknp => .sknp o.regX
  | .ldVxDt => .ldVxDt o.regX
  | .ldVxK => .ldVxK o.regX
  | .ldDtVx => .ldDtVx o.regX
  | .ldStVx => .ldStVx o.regX
  | .addI => .addI o.regX
  | .ldF => .ldF o.regX
  | .ldB => .ldB o.regX
  | .stRegs => .stRegs o.regX
  | .ldRegs => .ldRegs o.regX

/-- `decode(w)` with its operands extracted: total, it never fails (R75, R84). -/
def decode (w : Word) : Instr :=
  let d := scan decodeTable w
  d.opcode.instr (extract d.format.encoding w) w

/-- The word of two bytes, high byte first (20_memory.md R57). -/
def wordOfBytes (hi lo : Byte) : Word := (hi.setWidth 16 <<< 8) ||| lo.setWidth 16

/-- The byte of a word that lies at the lower address (R57). -/
def highByte (w : Word) : Byte := (w >>> 8).setWidth 8

/-- The byte of a word that lies at the higher address (R57). -/
def lowByte (w : Word) : Byte := w.setWidth 8

/-- Why bytes are no instruction: every instruction is two bytes (R70). -/
inductive DecodeError where
  /-- Fewer than two bytes are left. -/
  | truncated
  deriving DecidableEq, Repr

/-- The first instruction of a list of bytes and the bytes after it; fewer than two bytes are rejected
by name (R57, R70). -/
def decodeBytes : List Byte → Except DecodeError (Instr × List Byte)
  | hi :: lo :: rest => .ok (decode (wordOfBytes hi lo), rest)
  | _ => .error .truncated

/-- The word of format NNN: the code with `nnn` in bits 11:0 (R71, R73). -/
def encodeNNN (code : Word) (nnn : BitVec 12) : Word := code ||| nnn.setWidth 16

/-- The word of format X: the code with `x` in bits 11:8 (R71, R73). -/
def encodeX (code : Word) (x : Reg) : Word := code ||| (BitVec.ofNat 16 x.val <<< 8)

/-- The word of format XKK: `x` in bits 11:8 and `kk` in bits 7:0 (R71, R73). -/
def encodeXKK (code : Word) (x : Reg) (kk : Byte) : Word := encodeX code x ||| kk.setWidth 16

/-- The word of format XY: `x` in bits 11:8 and `y` in bits 7:4 (R71, R73). -/
def encodeXY (code : Word) (x y : Reg) : Word := encodeX code x ||| (BitVec.ofNat 16 y.val <<< 4)

/-- The word of format XYN: format XY with `n` in bits 3:0 (R71, R73). -/
def encodeXYN (code : Word) (x y : Reg) (n : BitVec 4) : Word := encodeXY code x y ||| n.setWidth 16

/-- The encoder: the word of an instruction, from the code and format of its row (R76). -/
def encode : Instr → Word
  | .invalid w => w
  | .cls => 0x00E0
  | .ret => 0x00EE
  | .jp nnn => encodeNNN 0x1000 nnn
  | .call nnn => encodeNNN 0x2000 nnn
  | .seImm x kk => encodeXKK 0x3000 x kk
  | .sneImm x kk => encodeXKK 0x4000 x kk
  | .seReg x y => encodeXY 0x5000 x y
  | .sneReg x y => encodeXY 0x9000 x y
  | .ldImm x kk => encodeXKK 0x6000 x kk
  | .addImm x kk => encodeXKK 0x7000 x kk
  | .ldReg x y => encodeXY 0x8000 x y
  | .orReg x y => encodeXY 0x8001 x y
  | .andReg x y => encodeXY 0x8002 x y
  | .xorReg x y => encodeXY 0x8003 x y
  | .addReg x y => encodeXY 0x8004 x y
  | .sub x y => encodeXY 0x8005 x y
  | .subn x y => encodeXY 0x8007 x y
  | .shr x y => encodeXY 0x8006 x y
  | .shl x y => encodeXY 0x800E x y
  | .ldI nnn => encodeNNN 0xA000 nnn
  | .jpV0 nnn => encodeNNN 0xB000 nnn
  | .rnd x kk => encodeXKK 0xC000 x kk
  | .drw x y n => encodeXYN 0xD000 x y n
  | .skp x => encodeX 0xE09E x
  | .sknp x => encodeX 0xE0A1 x
  | .ldVxDt x => encodeX 0xF007 x
  | .ldVxK x => encodeX 0xF00A x
  | .ldDtVx x => encodeX 0xF015 x
  | .ldStVx x => encodeX 0xF018 x
  | .addI x => encodeX 0xF01E x
  | .ldF x => encodeX 0xF029 x
  | .ldB x => encodeX 0xF033 x
  | .stRegs x => encodeX 0xF055 x
  | .ldRegs x => encodeX 0xF065 x

/-- The bytes of an instruction as memory holds them, the high byte first (R57). -/
def encodeBytes (i : Instr) : List Byte := [highByte (encode i), lowByte (encode i)]

/-- The low `nbits` bits of a number as an instruction word, every bit above them zero. -/
def tableWord (nbits w : Nat) : Word := BitVec.ofNat 16 (w % 2 ^ nbits)

/-- What the decoder reads from the instruction whose bits are `w`, numbered as the opcode table numbers
them (bit 0 the least significant bit of the one 16-bit word), laid out as memory holds it (R57). -/
def decodeTableWord (nbits w : Nat) : Option Instr :=
  match decodeBytes [highByte (tableWord nbits w), lowByte (tableWord nbits w)] with
  | .ok (i, _) => some i
  | .error _ => none

end Sys2Proof
end

