-- ==== Sys2Proof/Machine/State.lean ====
section
/-! DEFINITION. The state of the CORE (10_state.md), the fault causes and the fault status (60_exceptions.md R211, R212), the refusals, and the state after reset (R36 to R44, 70_reset_and_hazards.md R250). -/

namespace Sys2Proof.Machine

/-- The fault causes (R211), the only exceptions the CORE has (R210). A step that raises one TAKES it:
the step answers a next state whose `fault` is set (R212, R213; log 1), so no step and no meaning
ends in `Outcome.fault`. Safe: nothing of the step but the fault status is kept. -/
inductive Fault where
  /-- Code 1, raised by `INVALID` always (R100); its own field, `word`, is the fault status's `word`. Safe. -/
  | invalidOpcode
  /-- Code 2, raised by `JP V0, nnn` always (R109); its own field, `word`, is the fault status's `word`. Safe. -/
  | unimplementedOpcode
  /-- Code 3, raised by `RET` on an empty stack (R102). Safe. -/
  | stackUnderflow
  /-- Code 4, raised by `CALL` on a full stack, with the depth (R104). Safe. -/
  | stackOverflow (depth : Nat)
  /-- Code 5, raised by the fetch, DRW, LD B, LD [I],Vx and LD Vx,[I] for the lowest address above
  0xFFF (R52, R216). Safe. -/
  | memoryOutOfBounds (addr : Nat)
  /-- Code 6, raised by SKP and SKNP when the register holds more than 15 (R181, R182). Safe. -/
  | keyIndexOutOfRange (value : Byte)
  deriving DecidableEq, Repr

/-- Why an operation is refused. No step is refused: every instruction has its meaning. -/
inductive Refusal where
  /-- An instruction rejected by name in `exec`: raised by no arm of this model. Safe. -/
  | notModelled (mnemonic : String)
  /-- Construction error, code 7: `new` refuses an image of more than 3584 bytes (R219). Safe. -/
  | romTooLarge (length : Nat)
  /-- A host error: `key_down` and `key_up` refuse a code outside 0 to 15 (R226). Safe. -/
  | keyCodeOutOfRange (code : Nat)
  deriving DecidableEq, Repr

/-- The fault value `Fault(cause, info)`: the cause with its own field, the address the step fetched
from, and the fetched word, absent when the fetch itself failed (R212). -/
structure FaultStatus where
  cause : Fault
  pc : Word
  word : Option Word
  deriving DecidableEq, Repr

/-- The wait-for-key latch (R30). The key of WaitingKeyReceived(k) is the Keypad's `last_key`, which has one
home, the field `lastKey` of the state. -/
inductive Latch where
  | notWaiting
  | waitingNoKey
  | waitingKeyReceived
  deriving DecidableEq, Repr

/-- The pixels, row by row: 32 rows of 64 Booleans (R33). -/
abbrev Display := Vector (Vector Bool 64) 32

/-- The listed bytes of memory; an address that is not listed reads as its reset byte (R50, R54, log 5). -/
abbrev Memory := List Host.Cell

/-- The state of the CORE and of the collaborators whose state it reads (10_state.md). -/
structure State where
  /-- V0 to VF (R20). -/
  v : Vector Byte 16
  /-- The index register I (R26). -/
  idx : Word
  /-- The program counter (R24). -/
  pc : Word
  /-- The call stack, the last pushed address last; the stack pointer is its length (R27). -/
  stack : List Word
  /-- The delay timer DT (R28). -/
  dt : Byte
  /-- The sound timer ST (R28). -/
  st : Byte
  /-- The wait-for-key latch, the Keypad's `wait` and `new_key` (R30). -/
  latch : Latch
  /-- The Keypad's `last_key`: the key of WaitingKeyReceived(k), read in no other latch value (R30, R42). -/
  lastKey : Key
  /-- The sticky fault status (R31). -/
  fault : Option FaultStatus
  /-- The memory (R50). -/
  mem : Memory
  /-- The Keypad's keys, true while down (R32). -/
  keys : Vector Bool 16
  /-- The DisplayBuffer's pixels (R33). -/
  disp : Display
  /-- THE MODEL'S OWN: how many random bytes have been drawn (R227, log 8). -/
  draws : Nat
  deriving DecidableEq, Repr

/-- The machine after construction from an empty image (R36 to R44, R54, R250; log 9 says how a
program comes to run). Every listed value but `draws` is the spec's (log 4). -/
def State.reset : State where
  v := Vector.replicate 16 0
  idx := 0
  pc := 0x200
  stack := []
  dt := 0
  st := 0
  latch := .notWaiting
  lastKey := 0
  fault := none
  mem := []
  keys := Vector.replicate 16 false
  disp := Vector.replicate 32 (Vector.replicate 64 false)
  draws := 0

end Sys2Proof.Machine
end

