-- ==== Sys2Proof/Machine/Ops.lean ====
section
/-! DEFINITION. The named operations over the state: registers, memory, stack, skips, the display's blit, the latch, the fetch, and taking a fault, the CORE's one exception (60_exceptions.md R210 to R216). Every instruction is written over these. -/

namespace Sys2Proof.Machine

/-! ### Registers -/

/-- Read `V[x]` (R8, R20). -/
def State.reg (s : State) (x : Reg) : Byte := s.v[x]

/-- Write `V[x]` (R8, R20). -/
def State.setReg (s : State) (x : Reg) (b : Byte) : State := { s with v := s.v.set x b }

/-- Write the bytes of a list to `V[k]`, `V[k+1]`, ... in ascending order; there is no register above
V15 (R165, R22). -/
def State.setRegs (s : State) (k : Nat) : List Byte → State
  | [] => s
  | b :: bs => if h : k < 16 then (s.setReg ⟨k, h⟩ b).setRegs (k + 1) bs else s

/-- The values of V0 to Vx, in ascending order (R164). -/
def State.regsTo (s : State) (x : Reg) : List Byte := s.v.toList.take (x.val + 1)

/-! ### The program counter -/

/-- The default advance, `pc <- pc + 2` modulo 2^16 (R24, R82). -/
def State.advance (s : State) : State := { s with pc := s.pc + 2 }

/-- Write `pc` (R103). -/
def State.jump (s : State) (target : Word) : State := { s with pc := target }

/-- A skip adds 2 on top of the default advance when its test holds (R105 to R108). -/
def State.skipIf (s : State) (test : Bool) : State :=
  if test then { s with pc := s.pc + 2 } else s

/-- Roll `pc` back by 2, so that the same instruction executes at the next step (R184). -/
def State.rollBack (s : State) : State := { s with pc := s.pc - 2 }

/-! ### Memory -/

/-- What an address reads as that memory does not list: the reset byte, a font byte below 0x050 and
0x00 elsewhere (R54, R55; the spec's decisions D20, D21; logs 5, 6). -/
def Memory.unlisted (a : Nat) : Byte := (Config.font[a]?).getD 0

/-- The byte at an address of memory, `Mem[a]` (R50). -/
def Memory.read : Memory → Nat → Byte
  | [], a => Memory.unlisted a
  | (b, u) :: m, a => if a = b then u else Memory.read m a

/-- The list without any entry for an address. -/
def Memory.erase : Memory → Nat → Memory
  | [], _ => []
  | (b, u) :: m, a => if a = b then Memory.erase m a else (b, u) :: Memory.erase m a

/-- The list with an entry put before the first entry of a higher address. -/
def Memory.insert : Memory → Nat → Byte → Memory
  | [], a, v => [(a, v)]
  | (b, u) :: m, a, v => if a < b then (a, v) :: (b, u) :: m else (b, u) :: Memory.insert m a v

/-- `Mem[a] <- v`, in canonical form: writing what an unlisted address reads as removes the entry (R50). -/
def Memory.write (m : Memory) (a : Nat) (v : Byte) : Memory :=
  if v = Memory.unlisted a then Memory.erase m a else Memory.insert (Memory.erase m a) a v

/-- The canonical form: addresses strictly rising and inside memory, and no entry equal to what an
unlisted address reads as. -/
def Memory.wf : Memory → Bool
  | [] => true
  | (a, v) :: m =>
    decide (a < 0x1000) && decide (v ≠ Memory.unlisted a) &&
      m.all (fun c => decide (a < c.1)) && Memory.wf m

/-- `MemRead(a, 1)`: the byte at a natural address, which is checked against 0xFFF (R52; the spec's
decision D14, log 15). -/
def State.memRead (s : State) (a : Nat) : Except Fault Byte :=
  if a > 0xFFF then .error (.memoryOutOfBounds a) else .ok (Memory.read s.mem a)

/-- `MemWrite(a, 1, v)`: checked as `MemRead` is (R52). No region is protected (R53). -/
def State.memWrite (s : State) (a : Nat) (v : Byte) : Except Fault State :=
  if a > 0xFFF then .error (.memoryOutOfBounds a)
  else .ok { s with mem := Memory.write s.mem a v }

/-- `n` reads at ascending addresses from `a`; the first address out of bounds ends them (R59, R216). -/
def State.readBytes (s : State) (a : Nat) : Nat → Except Fault (List Byte)
  | 0 => .ok []
  | n + 1 =>
    match s.memRead a with
    | .error f => .error f
    | .ok b =>
      match s.readBytes (a + 1) n with
      | .error f => .error f
      | .ok bs => .ok (b :: bs)

/-- Writes at ascending addresses from `a`; the first address out of bounds ends them, and the fault
undoes those before it (R59, R213, R216). -/
def State.writeBytes (s : State) (a : Nat) : List Byte → Except Fault State
  | [] => .ok s
  | b :: bs =>
    match s.memWrite a b with
    | .error f => .error f
    | .ok t => t.writeBytes (a + 1) bs

/-! ### The call stack -/

/-- `push(v)`: a full stack raises StackOverflow (R27; the spec's decision D10, log 10). -/
def State.push (s : State) (v : Word) : Except Fault State :=
  if s.stack.length = Config.stackDepth then .error (.stackOverflow Config.stackDepth)
  else .ok { s with stack := s.stack ++ [v] }

/-- `pop()`: the last entry and the state without it; an empty stack raises StackUnderflow (R27). -/
def State.pop (s : State) : Except Fault (Word × State) :=
  match s.stack.getLast? with
  | none => .error .stackUnderflow
  | some v => .ok (v, { s with stack := s.stack.dropLast })

/-! ### The display -/

/-- Pixel `disp[r][c]`; there is none outside the 32 rows and 64 columns (R33). -/
def Display.pixel (d : Display) (r c : Nat) : Bool :=
  if h : r < 32 ∧ c < 64 then (d[r]'h.1)[c]'h.2 else false

/-- `disp[r][c] <- not disp[r][c]` (R225). -/
def Display.toggle (d : Display) (r c : Nat) : Display :=
  if h : r < 32 ∧ c < 64 then
    d.set r ((d[r]'h.1).set c (!((d[r]'h.1)[c]'h.2)) h.2) h.1
  else d

/-- `Display.clear()`: every pixel false (R224). -/
def Display.clear : Display := Vector.replicate 32 (Vector.replicate 64 false)

/-- One set sprite pixel at row `py`, column `px`: clipped outside the buffer, else it toggles the
pixel there, and a pixel that was set is a collision (R225). -/
def blitPixel (b : Display × Bool) (py px : Nat) : Display × Bool :=
  if px < 64 ∧ py < 32 then (Display.toggle b.1 py px, b.2 || Display.pixel b.1 py px) else b

/-- One sprite row, a byte at row `py` from column `x0`: bit `7 - c` is column `x0 + c` (R225; the
spec's decision D17, PRESUMED, log 19). -/
def blitRow (row : Byte) (x0 py : Nat) (b : Display × Bool) : Display × Bool :=
  (List.range 8).foldl (fun b c => if row.getLsbD (7 - c) then blitPixel b py (x0 + c) else b) b

/-- The rows of a sprite from row `py` downward (R225). -/
def blitRows (x0 : Nat) : List Byte → Nat → Display × Bool → Display × Bool
  | [], _, b => b
  | row :: rows, py, b => blitRows x0 rows (py + 1) (blitRow row x0 py b)

/-- `Display.draw_sprite(x, y, rows)`: the position wraps, the pixels beyond the edge are clipped; the
second component is the collision flag (R225). -/
def Display.drawSprite (d : Display) (x y : Nat) (rows : List Byte) : Display × Bool :=
  blitRows (x % 64) rows (y % 32) (d, false)

/-! ### The latch -/

/-- The Keypad's `wait` field (R30). -/
def Latch.wait : Latch → Bool
  | .notWaiting => false
  | .waitingNoKey => true
  | .waitingKeyReceived => true

/-- The Keypad's `new_key` field (R30). -/
def Latch.newKey : Latch → Bool
  | .notWaiting => false
  | .waitingNoKey => false
  | .waitingKeyReceived => true

/-- A key-down's effect on the latch: while it is not NotWaiting it becomes WaitingKeyReceived(k), and an
earlier key is replaced; else nothing is latched (R226; the spec's decision D18, log 20). -/
def State.latchKey (s : State) (k : Key) : State :=
  match s.latch with
  | .notWaiting => s
  | .waitingNoKey => { s with latch := .waitingKeyReceived, lastKey := k }
  | .waitingKeyReceived => { s with latch := .waitingKeyReceived, lastKey := k }

/-! ### The random source -/

/-- `RandomByte()`: the free value of this draw, and the state that has made it (R227, log 8). -/
def State.randomByte (s : State) : Byte × State :=
  (Config.randomByte s.draws, { s with draws := s.draws + 1 })

/-! ### Fetch, faults and the shape of a step -/

/-- The fetch: the byte at `pc`, then the byte at `pc + 1`, both checked as natural addresses, combined
big-endian (R57, R82, R216). -/
def State.fetchWord (s : State) : Except Fault Word :=
  match s.memRead s.pc.toNat with
  | .error f => .error f
  | .ok hi =>
    match s.memRead (s.pc.toNat + 1) with
    | .error f => .error f
    | .ok lo => .ok (wordOfBytes hi lo)

/-- TAKING A FAULT, the CORE's one exception entry: nothing of the step is kept, `pc` stays at the
instruction, and `fault` records the cause, `pc` and the word (R212, R213, R215; the spec's decisions
D12, D13; log 1). There is no return from it: only reset clears `fault` (R31, R218). -/
def State.takeFault (s : State) (c : Fault) (w : Option Word) : State :=
  { s with fault := some ⟨c, s.pc, w⟩ }

/-- An instruction's execution from the state its step fetched in: the default advance, then the
handler; a handler that raises leaves the state of before the advance, with the fault taken
(R82, R213). `w` is the instruction's word (log 3). -/
def runHandler (w : Word) (handler : State → Except Fault State) (s : State) :
    Host.Outcome State Fault Refusal :=
  match handler s.advance with
  | .ok t => .next t
  | .error c => .next (s.takeFault c (some w))

/-- The numeric code of a cause (R211; the spec's decision D13). -/
def Fault.code : Fault → Nat
  | .invalidOpcode => 1
  | .unimplementedOpcode => 2
  | .stackUnderflow => 3
  | .stackOverflow _ => 4
  | .memoryOutOfBounds _ => 5
  | .keyIndexOutOfRange _ => 6

/-- The state in which the next step fetches the word `w`: its two bytes stand at `pc` and `pc + 1`,
and no sticky fault stops the step (R57, R214; log 9). Bytes beyond 0xFFF have no place. -/
def State.placeWord (s : State) (w : Word) : State :=
  match s.writeBytes s.pc.toNat [highByte w, lowByte w] with
  | .error _ => { s with fault := none }
  | .ok t => { t with fault := none }

end Sys2Proof.Machine
end

