-- ==== Sys2Proof/Machine/Flags.lean ====
section
/-! DEFINITION. Every flag computation of the CORE, the value VF takes (41_alu.md R137 to R141, 43_io_timers.md R180), and the ALU's write order (R130). -/

namespace Sys2Proof.Machine

/-- A flag's value in VF: 1 or 0 (R130). -/
def flagByte (f : Bool) : Byte := if f then 1 else 0

/-- ADD's carry: the 9-bit sum exceeds 255 (R137). -/
def addCarry (a b : Byte) : Bool := decide (a.toNat + b.toNat > 255)

/-- SUB's no-borrow flag: `Vy <= Vx` (R138). -/
def subNoBorrow (a b : Byte) : Bool := decide (b.toNat ≤ a.toNat)

/-- `SUBN_FLAG(a, b)` under each value of `P_SUBN_VF` (R139; the spec's decision D7, log 11). -/
def subnFlag (p : SubnVf) (a b : Byte) : Bool :=
  match p with
  | .sameAsSub => !decide (b.toNat > a.toNat)
  | .noBorrow => decide (a.toNat ≤ b.toNat)

/-- The bit SHR shifts out, bit 0 (R140). -/
def shrOut (a : Byte) : Bool := a.getLsbD 0

/-- The bit SHL shifts out, bit 7 (R141). -/
def shlOut (a : Byte) : Bool := a.getLsbD 7

/-- Write `V[x]`, then write VF last, so that VF ends as the flag when `x = 15` (R130; the spec's
decision D6, log 12). -/
def State.setRegFlag (s : State) (x : Reg) (r : Byte) (f : Bool) : State :=
  (s.setReg x r).setReg VF (flagByte f)

end Sys2Proof.Machine
end

