-- ==== Sys2Proof/Machine/Alu.lean ====
section
/-! DEFINITION. 41_alu.md: the loads and the immediate add, the bitwise operations, the arithmetic with flags, the shifts and RND. Each reads all its operands before it writes (R130). -/

namespace Sys2Proof.Machine

/-- `LD Vx, kk` (R131). -/
def handleLdImm (x : Reg) (kk : Byte) (t : State) : Except Fault State := .ok (t.setReg x kk)

/-- The meaning of `ldImm`: its handler, run as R82 says (R131). -/
def execLdImm (x : Reg) (kk : Byte) (s : State) : Host.Outcome State Fault Refusal :=
  runHandler (encode (.ldImm x kk)) (handleLdImm x kk) s

/-- `ADD Vx, kk` wraps and touches no flag (R132). -/
def handleAddImm (x : Reg) (kk : Byte) (t : State) : Except Fault State := .ok (t.setReg x (t.reg x + kk))

/-- The meaning of `addImm`: its handler, run as R82 says (R132). -/
def execAddImm (x : Reg) (kk : Byte) (s : State) : Host.Outcome State Fault Refusal :=
  runHandler (encode (.addImm x kk)) (handleAddImm x kk) s

/-- `LD Vx, Vy` (R133). -/
def handleLdReg (x y : Reg) (t : State) : Except Fault State := .ok (t.setReg x (t.reg y))

/-- The meaning of `ldReg`: its handler, run as R82 says (R133). -/
def execLdReg (x y : Reg) (s : State) : Host.Outcome State Fault Refusal :=
  runHandler (encode (.ldReg x y)) (handleLdReg x y) s

/-- `OR Vx, Vy`; VF is not reset (R134). -/
def handleOrReg (x y : Reg) (t : State) : Except Fault State := .ok (t.setReg x (t.reg x ||| t.reg y))

/-- The meaning of `orReg`: its handler, run as R82 says (R134). -/
def execOrReg (x y : Reg) (s : State) : Host.Outcome State Fault Refusal :=
  runHandler (encode (.orReg x y)) (handleOrReg x y) s

/-- `AND Vx, Vy` (R135). -/
def handleAndReg (x y : Reg) (t : State) : Except Fault State := .ok (t.setReg x (t.reg x &&& t.reg y))

/-- The meaning of `andReg`: its handler, run as R82 says (R135). -/
def execAndReg (x y : Reg) (s : State) : Host.Outcome State Fault Refusal :=
  runHandler (encode (.andReg x y)) (handleAndReg x y) s

/-- `XOR Vx, Vy` (R136). -/
def handleXorReg (x y : Reg) (t : State) : Except Fault State := .ok (t.setReg x (t.reg x ^^^ t.reg y))

/-- The meaning of `xorReg`: its handler, run as R82 says (R136). -/
def execXorReg (x y : Reg) (s : State) : Host.Outcome State Fault Refusal :=
  runHandler (encode (.xorReg x y)) (handleXorReg x y) s

/-- `ADD Vx, Vy`, VF the carry (R137). -/
def handleAddReg (x y : Reg) (t : State) : Except Fault State :=
  .ok (t.setRegFlag x (t.reg x + t.reg y) (addCarry (t.reg x) (t.reg y)))

/-- The meaning of `addReg`: its handler, run as R82 says (R137). -/
def execAddReg (x y : Reg) (s : State) : Host.Outcome State Fault Refusal :=
  runHandler (encode (.addReg x y)) (handleAddReg x y) s

/-- `SUB Vx, Vy`, VF the no-borrow flag (R138). -/
def handleSub (x y : Reg) (t : State) : Except Fault State :=
  .ok (t.setRegFlag x (t.reg x - t.reg y) (subNoBorrow (t.reg x) (t.reg y)))

/-- The meaning of `sub`: its handler, run as R82 says (R138). -/
def execSub (x y : Reg) (s : State) : Host.Outcome State Fault Refusal :=
  runHandler (encode (.sub x y)) (handleSub x y) s

/-- `SUBN Vx, Vy`: `Vx <- Vy - Vx`, VF the flag that `P_SUBN_VF` chooses (R139). -/
def handleSubn (x y : Reg) (t : State) : Except Fault State :=
  .ok (t.setRegFlag x (t.reg y - t.reg x) (subnFlag Config.subnVf (t.reg x) (t.reg y)))

/-- The meaning of `subn`: its handler, run as R82 says (R139). -/
def execSubn (x y : Reg) (s : State) : Host.Outcome State Fault Refusal :=
  runHandler (encode (.subn x y)) (handleSubn x y) s

/-- `SHR Vx`, VF the bit shifted out; `Vy` is not read (R140). -/
def handleShr (x : Reg) (t : State) : Except Fault State :=
  .ok (t.setRegFlag x (t.reg x >>> 1) (shrOut (t.reg x)))

/-- The meaning of `shr`: its handler, run as R82 says (R140). -/
def execShr (x y : Reg) (s : State) : Host.Outcome State Fault Refusal :=
  runHandler (encode (.shr x y)) (handleShr x) s

/-- `SHL Vx`, VF the bit shifted out; `Vy` is not read (R141). -/
def handleShl (x : Reg) (t : State) : Except Fault State :=
  .ok (t.setRegFlag x (t.reg x <<< 1) (shlOut (t.reg x)))

/-- The meaning of `shl`: its handler, run as R82 says (R141). -/
def execShl (x y : Reg) (s : State) : Host.Outcome State Fault Refusal :=
  runHandler (encode (.shl x y)) (handleShl x) s

/-- `RND Vx, kk`: one draw, masked (R142). -/
def handleRnd (x : Reg) (kk : Byte) (t : State) : Except Fault State :=
  match t.randomByte with
  | (r, u) => .ok (u.setReg x (r &&& kk))

/-- The meaning of `rnd`: its handler, run as R82 says (R142). -/
def execRnd (x : Reg) (kk : Byte) (s : State) : Host.Outcome State Fault Refusal :=
  runHandler (encode (.rnd x kk)) (handleRnd x kk) s

end Sys2Proof.Machine
end

