-- ==== Sys2Proof/Machine/Operands.lean ====
section
/-! DEFINITION. The operand forms: zero-extended addresses (30_encoding.md R74), the index-relative address (42_index_memory.md R166), the key operand (43_io_timers.md R181), the sprite position (R180), the glyph address (R162) and the decimal digits (R163). -/

namespace Sys2Proof.Machine

/-- `zext_16(nnn)`: a 12-bit address as a `pc` or `I` value (R74). -/
def zext16 (nnn : BitVec 12) : Word := nnn.setWidth 16

/-- The one data address: `I + k` as a natural number, without wrap-around (R166). -/
def State.indexAddr (s : State) (k : Nat) : Nat := s.idx.toNat + k

/-- The key that `V[x]` names; a value above 15 raises KeyIndexOutOfRange (R181, R182; the spec's
decision D15, log 17). -/
def State.keyOperand (s : State) (x : Reg) : Except Fault Key :=
  if h : (s.reg x).toNat < 16 then .ok ⟨(s.reg x).toNat, h⟩
  else .error (.keyIndexOutOfRange (s.reg x))

/-- Is the key down (R32)? -/
def State.keyIsDown (s : State) (k : Key) : Bool := s.keys[k]

/-- The sprite's column, `V[x] mod 64` (R180). -/
def State.spriteX (s : State) (x : Reg) : Nat := (s.reg x).toNat % 64

/-- The sprite's row, `V[y] mod 32` (R180). -/
def State.spriteY (s : State) (y : Reg) : Nat := (s.reg y).toNat % 32

/-- The address of a glyph, `V[x] * 5`, in 16 bits and unmasked (R162). -/
def glyphAddr (b : Byte) : Word := b.setWidth 16 * 5

/-- The hundreds, tens and ones digits of a byte, in this order (R163). -/
def bcdDigits (b : Byte) : List Byte :=
  [BitVec.ofNat 8 (b.toNat / 100), BitVec.ofNat 8 (b.toNat / 10 % 10), BitVec.ofNat 8 (b.toNat % 10)]

end Sys2Proof.Machine
end

