-- ==== Sys2Proof/Machine/Control.lean ====
section
/-! DEFINITION. 40_control.md: INVALID, CLS, RET, JP, CALL, the four register and immediate skips, and JP V0. Each handler runs after the default advance, so `pc` already holds the next instruction's address (30_encoding.md R82). -/

namespace Sys2Proof.Machine

/-- `INVALID` raises InvalidOpcode with its word, always (R100). -/
def handleInvalid (_ : State) : Except Fault State := .error .invalidOpcode

/-- The meaning of `invalid`: its handler, run as R82 says (R100). -/
def execInvalid (w : Word) (s : State) : Host.Outcome State Fault Refusal :=
  runHandler (encode (.invalid w)) handleInvalid s

/-- `CLS` clears every pixel (R101). -/
def handleCls (t : State) : Except Fault State := .ok { t with disp := Display.clear }

/-- The meaning of `cls`: its handler, run as R82 says (R101). -/
def execCls (s : State) : Host.Outcome State Fault Refusal :=
  runHandler (encode .cls) handleCls s

/-- `RET` pops `pc`; an empty stack raises StackUnderflow (R102). -/
def handleRet (t : State) : Except Fault State :=
  match t.pop with
  | .error f => .error f
  | .ok (v, u) => .ok (u.jump v)

/-- The meaning of `ret`: its handler, run as R82 says (R102). -/
def execRet (s : State) : Host.Outcome State Fault Refusal :=
  runHandler (encode .ret) handleRet s

/-- `JP nnn` (R103). -/
def handleJp (nnn : BitVec 12) (t : State) : Except Fault State := .ok (t.jump (zext16 nnn))

/-- The meaning of `jp`: its handler, run as R82 says (R103). -/
def execJp (nnn : BitVec 12) (s : State) : Host.Outcome State Fault Refusal :=
  runHandler (encode (.jp nnn)) (handleJp nnn) s

/-- `CALL nnn` pushes the advanced `pc`; a full stack raises StackOverflow (R104). -/
def handleCall (nnn : BitVec 12) (t : State) : Except Fault State :=
  match t.push t.pc with
  | .error f => .error f
  | .ok u => .ok (u.jump (zext16 nnn))

/-- The meaning of `call`: its handler, run as R82 says (R104). -/
def execCall (nnn : BitVec 12) (s : State) : Host.Outcome State Fault Refusal :=
  runHandler (encode (.call nnn)) (handleCall nnn) s

/-- `SE Vx, kk` skips when they are equal (R105). -/
def handleSeImm (x : Reg) (kk : Byte) (t : State) : Except Fault State := .ok (t.skipIf (t.reg x == kk))

/-- The meaning of `seImm`: its handler, run as R82 says (R105). -/
def execSeImm (x : Reg) (kk : Byte) (s : State) : Host.Outcome State Fault Refusal :=
  runHandler (encode (.seImm x kk)) (handleSeImm x kk) s

/-- `SNE Vx, kk` skips when they differ (R106). -/
def handleSneImm (x : Reg) (kk : Byte) (t : State) : Except Fault State := .ok (t.skipIf (t.reg x != kk))

/-- The meaning of `sneImm`: its handler, run as R82 says (R106). -/
def execSneImm (x : Reg) (kk : Byte) (s : State) : Host.Outcome State Fault Refusal :=
  runHandler (encode (.sneImm x kk)) (handleSneImm x kk) s

/-- `SE Vx, Vy` skips when they are equal (R107). -/
def handleSeReg (x y : Reg) (t : State) : Except Fault State := .ok (t.skipIf (t.reg x == t.reg y))

/-- The meaning of `seReg`: its handler, run as R82 says (R107). -/
def execSeReg (x y : Reg) (s : State) : Host.Outcome State Fault Refusal :=
  runHandler (encode (.seReg x y)) (handleSeReg x y) s

/-- `SNE Vx, Vy` skips when they differ (R108). -/
def handleSneReg (x y : Reg) (t : State) : Except Fault State := .ok (t.skipIf (t.reg x != t.reg y))

/-- The meaning of `sneReg`: its handler, run as R82 says (R108). -/
def execSneReg (x y : Reg) (s : State) : Host.Outcome State Fault Refusal :=
  runHandler (encode (.sneReg x y)) (handleSneReg x y) s

/-- `JP V0, nnn` decodes and has no handler: it raises UnimplementedOpcode with its word, always (R109). -/
def handleJpV0 (_ : State) : Except Fault State := .error .unimplementedOpcode

/-- The meaning of `jpV0`: its handler, run as R82 says (R109). -/
def execJpV0 (nnn : BitVec 12) (s : State) : Host.Outcome State Fault Refusal :=
  runHandler (encode (.jpV0 nnn)) handleJpV0 s

end Sys2Proof.Machine
end

