-- ==== Sys2Proof/Machine/IndexMemory.lean ====
section
/-! DEFINITION. 42_index_memory.md: the writes of I, and the stores and loads through I, which they leave unchanged (R166). -/

namespace Sys2Proof.Machine

/-- `LD I, nnn` (R160). -/
def handleLdI (nnn : BitVec 12) (t : State) : Except Fault State := .ok { t with idx := zext16 nnn }

/-- The meaning of `ldI`: its handler, run as R82 says (R160). -/
def execLdI (nnn : BitVec 12) (s : State) : Host.Outcome State Fault Refusal :=
  runHandler (encode (.ldI nnn)) (handleLdI nnn) s

/-- `ADD I, Vx` wraps modulo 2^16 and touches no flag (R161; the spec's decision D11, log 16). -/
def handleAddI (x : Reg) (t : State) : Except Fault State :=
  .ok { t with idx := t.idx + (t.reg x).setWidth 16 }

/-- The meaning of `addI`: its handler, run as R82 says (R161). -/
def execAddI (x : Reg) (s : State) : Host.Outcome State Fault Refusal :=
  runHandler (encode (.addI x)) (handleAddI x) s

/-- `LD F, Vx`: `I <- V[x] * 5`, unmasked (R162). -/
def handleLdF (x : Reg) (t : State) : Except Fault State := .ok { t with idx := glyphAddr (t.reg x) }

/-- The meaning of `ldF`: its handler, run as R82 says (R162). -/
def execLdF (x : Reg) (s : State) : Host.Outcome State Fault Refusal :=
  runHandler (encode (.ldF x)) (handleLdF x) s

/-- `LD B, Vx` stores the three decimal digits at I, I+1, I+2 (R163). -/
def handleLdB (x : Reg) (t : State) : Except Fault State := t.writeBytes (t.indexAddr 0) (bcdDigits (t.reg x))

/-- The meaning of `ldB`: its handler, run as R82 says (R163). -/
def execLdB (x : Reg) (s : State) : Host.Outcome State Fault Refusal :=
  runHandler (encode (.ldB x)) (handleLdB x) s

/-- `LD [I], Vx` stores V0 to Vx from I upward (R164). -/
def handleStRegs (x : Reg) (t : State) : Except Fault State := t.writeBytes (t.indexAddr 0) (t.regsTo x)

/-- The meaning of `stRegs`: its handler, run as R82 says (R164). -/
def execStRegs (x : Reg) (s : State) : Host.Outcome State Fault Refusal :=
  runHandler (encode (.stRegs x)) (handleStRegs x) s

/-- `LD Vx, [I]` loads V0 to Vx from I upward (R165). -/
def handleLdRegs (x : Reg) (t : State) : Except Fault State :=
  match t.readBytes (t.indexAddr 0) (x.val + 1) with
  | .error f => .error f
  | .ok bs => .ok (t.setRegs 0 bs)

/-- The meaning of `ldRegs`: its handler, run as R82 says (R165). -/
def execLdRegs (x : Reg) (s : State) : Host.Outcome State Fault Refusal :=
  runHandler (encode (.ldRegs x)) (handleLdRegs x) s

end Sys2Proof.Machine
end

