-- ==== Sys2Proof/Machine/IoTimers.lean ====
section
/-! DEFINITION. 43_io_timers.md: DRW, the key skips, the delay-timer read, the wait for a key, and the timer writes. -/

namespace Sys2Proof.Machine

/-- `DRW Vx, Vy, n`: the position and the rows are read before anything is written; VF, the collision
flag, is written last (R180; `n = 0` is an empty sprite, the spec's decision D16, log 18). -/
def handleDrw (x y : Reg) (n : BitVec 4) (t : State) : Except Fault State :=
  match t.readBytes (t.indexAddr 0) n.toNat with
  | .error f => .error f
  | .ok rows =>
    match Display.drawSprite t.disp (t.spriteX x) (t.spriteY y) rows with
    | (d, collision) => .ok ({ t with disp := d }.setReg VF (flagByte collision))

/-- The meaning of `drw`: its handler, run as R82 says (R180). -/
def execDrw (x y : Reg) (n : BitVec 4) (s : State) : Host.Outcome State Fault Refusal :=
  runHandler (encode (.drw x y n)) (handleDrw x y n) s

/-- `SKP Vx` skips when the key is down (R181). -/
def handleSkp (x : Reg) (t : State) : Except Fault State :=
  match t.keyOperand x with
  | .error f => .error f
  | .ok k => .ok (t.skipIf (t.keyIsDown k))

/-- The meaning of `skp`: its handler, run as R82 says (R181). -/
def execSkp (x : Reg) (s : State) : Host.Outcome State Fault Refusal :=
  runHandler (encode (.skp x)) (handleSkp x) s

/-- `SKNP Vx` skips when the key is up (R182). -/
def handleSknp (x : Reg) (t : State) : Except Fault State :=
  match t.keyOperand x with
  | .error f => .error f
  | .ok k => .ok (t.skipIf (!t.keyIsDown k))

/-- The meaning of `sknp`: its handler, run as R82 says (R182). -/
def execSknp (x : Reg) (s : State) : Host.Outcome State Fault Refusal :=
  runHandler (encode (.sknp x)) (handleSknp x) s

/-- `LD Vx, DT` (R183). -/
def handleLdVxDt (x : Reg) (t : State) : Except Fault State := .ok (t.setReg x t.dt)

/-- The meaning of `ldVxDt`: its handler, run as R82 says (R183). -/
def execLdVxDt (x : Reg) (s : State) : Host.Outcome State Fault Refusal :=
  runHandler (encode (.ldVxDt x)) (handleLdVxDt x) s

/-- `LD Vx, K`: the first execution begins to wait, a waiting one without a key waits on, and one with a
key stores it and goes on; `last_key` keeps its value, for the rule writes `wait` and `new_key` alone (R184,
R9). -/
def handleLdVxK (x : Reg) (t : State) : Except Fault State :=
  match t.latch with
  | .notWaiting => .ok { t with latch := .waitingNoKey }.rollBack
  | .waitingNoKey => .ok t.rollBack
  | .waitingKeyReceived =>
    .ok { t.setReg x (BitVec.ofNat 8 t.lastKey.val) with latch := .notWaiting }

/-- The meaning of `ldVxK`: its handler, run as R82 says (R184). -/
def execLdVxK (x : Reg) (s : State) : Host.Outcome State Fault Refusal :=
  runHandler (encode (.ldVxK x)) (handleLdVxK x) s

/-- `LD DT, Vx` (R185). -/
def handleLdDtVx (x : Reg) (t : State) : Except Fault State := .ok { t with dt := t.reg x }

/-- The meaning of `ldDtVx`: its handler, run as R82 says (R185). -/
def execLdDtVx (x : Reg) (s : State) : Host.Outcome State Fault Refusal :=
  runHandler (encode (.ldDtVx x)) (handleLdDtVx x) s

/-- `LD ST, Vx` (R186). -/
def handleLdStVx (x : Reg) (t : State) : Except Fault State := .ok { t with st := t.reg x }

/-- The meaning of `ldStVx`: its handler, run as R82 says (R186). -/
def execLdStVx (x : Reg) (s : State) : Host.Outcome State Fault Refusal :=
  runHandler (encode (.ldStVx x)) (handleLdStVx x) s

end Sys2Proof.Machine
end

