-- ==== Sys2Proof/Machine/Step.lean ====
section
/-! DEFINITION. One call of the engine's step: the sticky fault, the fetch, decode, and the instruction (30_encoding.md R82, 60_exceptions.md R214, R216). -/

namespace Sys2Proof.Machine

/-- `step()`. A step that returns an error to the host answers the next state whose `fault` is that
error; a faulted engine changes nothing (R82, R213, R214; logs 1, 2). -/
def step (s : State) : Host.Outcome State Fault Refusal :=
  match s.fault with
  | some _ => .next s
  | none =>
    match s.fetchWord with
    | .error c => .next (s.takeFault c none)
    | .ok w => exec (decode w) s

/-- `s` with the instruction whose bits are `w` standing where `step` fetches (log 9). -/
def State.withFetchWord (s : State) (nbits w : Nat) : State :=
  s.placeWord (tableWord nbits w)

end Sys2Proof.Machine
end

