-- ==== Sys2Proof/Machine/HostOps.lean ====
section
/-! DEFINITION. The rest of the host interface (60_exceptions.md R228): construction, the timers' tick, key events, the sound output, the debug read, the display read, what step returns, and any schedule of these operations (00_scope.md R10). -/

namespace Sys2Proof.Machine

/-- `new(rom)`: reset with the image at 0x200; an image of more than 3584 bytes is refused and no engine
exists (R56, R219, R250). -/
def construct (rom : List Byte) : Host.Outcome State Fault Refusal :=
  if rom.length > Config.romMax then .refused (.romTooLarge rom.length)
  else
    match State.reset.writeBytes Config.romBase rom with
    | .ok s => .next s
    | .error _ => .refused (.romTooLarge rom.length)

/-- The numeric code of a construction error: RomTooLarge is 7 (R219; the spec's decision D13). The other
refusals are no construction errors and have no code. -/
def Refusal.constructionCode : Refusal → Option Nat
  | .romTooLarge _ => some 7
  | _ => none

/-- A timer's tick: down by one, floor at zero (R28, R221). -/
def timerTick (b : Byte) : Byte := if b.toNat > 0 then b - 1 else b

/-- `tick_timers()`, in every engine state (R214, R221). -/
def tickTimers (s : State) : State := { s with dt := timerTick s.dt, st := timerTick s.st }

/-- `key_down(k)`: the key is down, and a latch that waits takes it; a code outside 0 to 15 is refused
(R226). -/
def keyDown (k : Nat) (s : State) : Host.Outcome State Fault Refusal :=
  if h : k < 16 then
    .next ({ s with keys := s.keys.set k true }.latchKey ⟨k, h⟩)
  else .refused (.keyCodeOutOfRange k)

/-- `key_up(k)`: the key is up, the latch is unchanged; a code outside 0 to 15 is refused (R226). -/
def keyUp (k : Nat) (s : State) : Host.Outcome State Fault Refusal :=
  if h : k < 16 then .next { s with keys := s.keys.set k false }
  else .refused (.keyCodeOutOfRange k)

/-- `get_sound_state()`, the output `sound_on`: `ST > 0` (R29, R222). -/
def soundState (s : State) : Bool := decide (s.st.toNat > 0)

/-- What the debug read returns (R229). -/
structure DebugView where
  v : Vector Byte 16
  pc : Word
  idx : Word
  stackDepth : Nat
  dt : Byte
  st : Byte
  fault : Option FaultStatus
  deriving DecidableEq, Repr

/-- The debug read (R229). -/
def debugRead (s : State) : DebugView :=
  { v := s.v, pc := s.pc, idx := s.idx, stackDepth := s.stack.length, dt := s.dt, st := s.st, fault := s.fault }

/-- The display read, for rendering (R228). -/
def displayRead (s : State) : Display := s.disp

/-- What `step()` returns to the host: `none` for Ok, the fault for Err (R82, R214). -/
def stepReturn (s : State) : Option FaultStatus :=
  match step s with
  | .next t => t.fault
  | .fault _ => none
  | .refused _ => none

/-- The host operations that change the state of an engine (R10, R228). -/
inductive HostOp where
  | step
  | tickTimers
  | keyDown (k : Nat)
  | keyUp (k : Nat)
  deriving DecidableEq, Repr

/-- One host operation, one transaction (R10). -/
def hostStep (op : HostOp) (s : State) : Host.Outcome State Fault Refusal :=
  match op with
  | .step => step s
  | .tickTimers => .next (tickTimers s)
  | .keyDown k => keyDown k s
  | .keyUp k => keyUp k s

/-- A schedule of host operations, in any order and ratio; the first refusal ends it (R10). -/
def hostRun : List HostOp → State → Host.Outcome State Fault Refusal
  | [], s => .next s
  | op :: ops, s =>
    match hostStep op s with
    | .next t => hostRun ops t
    | .fault f => .fault f
    | .refused r => .refused r

end Sys2Proof.Machine
end

