-- ==== Sys2Proof/Safety.lean ====
section
/-! DEFINITION. The terms claims are stated in: completing an instruction and raising a fault, the frame of a step component by component (00_scope.md R9), what each instruction may write, the table of fault conditions (60_exceptions.md R211), the invariant of the state, and the states a host can reach (00_scope.md R10). -/

namespace Sys2Proof.Machine

/-! ### Completing and raising -/

/-- Instruction `i`, executed in `s`, answers a next state with the property `P`. -/
def Completes (i : Instr) (s : State) (P : State → Prop) : Prop :=
  ∃ t, exec i s = .next t ∧ P t

/-- Instruction `i`, executed in `s`, takes the fault `c`: the next state is `s` itself but for the fault
status, which records the cause, the instruction's own address and its word (R212, R213). -/
def Raises (i : Instr) (s : State) (c : Fault) : Prop :=
  exec i s = .next { s with fault := some ⟨c, s.pc, some (encode i)⟩ }

/-- A run answers a next state with no fault pending: it may go on. -/
def State.runs (s : State) : Prop := s.fault = none

/-! ### The frame -/

/-- The pieces of the state that an instruction may or may not write. -/
inductive Component where
  | regs | idx | pc | stack | dt | st | latch | lastKey | fault | mem | keys | disp | draws
  deriving DecidableEq, Repr

/-- Two states agree on a component: every register, every byte of memory at every address, every key,
every pixel. -/
def Agree (c : Component) (s t : State) : Prop :=
  match c with
  | .regs => ∀ r : Reg, t.reg r = s.reg r
  | .idx => t.idx = s.idx
  | .pc => t.pc = s.pc
  | .stack => t.stack = s.stack
  | .dt => t.dt = s.dt
  | .st => t.st = s.st
  | .latch => t.latch = s.latch
  | .lastKey => t.lastKey = s.lastKey
  | .fault => t.fault = s.fault
  | .mem => ∀ a : Nat, Memory.read t.mem a = Memory.read s.mem a
  | .keys => ∀ k : Key, t.keyIsDown k = s.keyIsDown k
  | .disp => ∀ r c : Nat, Display.pixel t.disp r c = Display.pixel s.disp r c
  | .draws => t.draws = s.draws

/-- The frame of a step: the two states agree on every component but those listed (R9). -/
def Frame (written : List Component) (s t : State) : Prop :=
  ∀ c, c ∉ written → Agree c s t

/-- Every register but those listed keeps its value (R9). -/
def RegsFrame (written : List Reg) (s t : State) : Prop :=
  ∀ r, r ∉ written → t.reg r = s.reg r

/-- What an instruction's rule lets it write beside the fault status: the components it names (R9). The
`draws` counter is the model's own (log 8). -/
def writesOf : Instr → List Component
  | .invalid _ => []
  | .cls => [.pc, .disp]
  | .ret => [.pc, .stack]
  | .jp _ => [.pc]
  | .call _ => [.pc, .stack]
  | .seImm _ _ => [.pc]
  | .sneImm _ _ => [.pc]
  | .seReg _ _ => [.pc]
  | .sneReg _ _ => [.pc]
  | .ldImm _ _ => [.pc, .regs]
  | .addImm _ _ => [.pc, .regs]
  | .ldReg _ _ => [.pc, .regs]
  | .orReg _ _ => [.pc, .regs]
  | .andReg _ _ => [.pc, .regs]
  | .xorReg _ _ => [.pc, .regs]
  | .addReg _ _ => [.pc, .regs]
  | .sub _ _ => [.pc, .regs]
  | .subn _ _ => [.pc, .regs]
  | .shr _ _ => [.pc, .regs]
  | .shl _ _ => [.pc, .regs]
  | .ldI _ => [.pc, .idx]
  | .jpV0 _ => []
  | .rnd _ _ => [.pc, .regs, .draws]
  | .drw _ _ _ => [.pc, .regs, .disp]
  | .skp _ => [.pc]
  | .sknp _ => [.pc]
  | .ldVxDt _ => [.pc, .regs]
  | .ldVxK _ => [.pc, .regs, .latch]
  | .ldDtVx _ => [.pc, .dt]
  | .ldStVx _ => [.pc, .st]
  | .addI _ => [.pc, .idx]
  | .ldF _ => [.pc, .idx]
  | .ldB _ => [.pc, .mem]
  | .stRegs _ => [.pc, .mem]
  | .ldRegs _ => [.pc, .regs]

/-- May instruction `i` write register `r`? Its destination, VF where its rule has a flag, V0 to Vx for
the block load (R20, R21). -/
def mayWriteReg (i : Instr) (r : Reg) : Bool :=
  match i with
  | .invalid _ | .cls | .ret | .jp _ | .call _ | .seImm _ _ | .sneImm _ _ | .seReg _ _ | .sneReg _ _ => false
  | .ldImm x _ | .addImm x _ | .ldReg x _ | .orReg x _ | .andReg x _ | .xorReg x _ => r == x
  | .addReg x _ | .sub x _ | .subn x _ | .shr x _ | .shl x _ => r == x || r == VF
  | .ldI _ | .jpV0 _ => false
  | .rnd x _ => r == x
  | .drw _ _ _ => r == VF
  | .skp _ | .sknp _ => false
  | .ldVxDt x | .ldVxK x => r == x
  | .ldDtVx _ | .ldStVx _ | .addI _ | .ldF _ | .ldB _ | .stRegs _ => false
  | .ldRegs x => decide (r ≤ x)

/-- May instruction `i`, executed in `s`, store to address `a`? The three bytes from I for LD B, the
`x + 1` bytes from I for LD [I], Vx (R59); `I + 0` is the meaning's own address expression. -/
def mayStore (i : Instr) (s : State) (a : Nat) : Bool :=
  match i with
  | .invalid _ | .cls | .ret | .jp _ | .call _ | .seImm _ _ | .sneImm _ _ | .seReg _ _ | .sneReg _ _
  | .ldImm _ _ | .addImm _ _ | .ldReg _ _ | .orReg _ _ | .andReg _ _ | .xorReg _ _ | .addReg _ _
  | .sub _ _ | .subn _ _ | .shr _ _ | .shl _ _ | .ldI _ | .jpV0 _ | .rnd _ _ | .drw _ _ _
  | .skp _ | .sknp _ | .ldVxDt _ | .ldVxK _ | .ldDtVx _ | .ldStVx _ | .addI _ | .ldF _ => false
  | .ldB _ => decide (s.indexAddr 0 ≤ a ∧ a < s.indexAddr 0 + 3)
  | .stRegs x => decide (s.indexAddr 0 ≤ a ∧ a < s.indexAddr 0 + (x.val + 1))
  | .ldRegs _ => false

/-! ### The fault conditions -/

/-- The fault of `n` accesses at ascending natural addresses from `a`: none while all lie in 0x000 to
0xFFF, else the lowest address above 0xFFF (R52, R216). -/
def rangeFault (a n : Nat) : Option Fault :=
  if n = 0 ∨ a + n ≤ 0x1000 then none
  else some (.memoryOutOfBounds (if a ≤ 0xFFF then 0x1000 else a))

/-- R211's table: the fault that an instruction raises in a state, if any. -/
def faultOf (i : Instr) (s : State) : Option Fault :=
  match i with
  | .invalid _ => some .invalidOpcode
  | .jpV0 _ => some .unimplementedOpcode
  | .ret => if s.stack.length = 0 then some .stackUnderflow else none
  | .call _ => if s.stack.length = 16 then some (.stackOverflow 16) else none
  | .skp x | .sknp x => if (s.reg x).toNat > 15 then some (.keyIndexOutOfRange (s.reg x)) else none
  | .drw _ _ n => rangeFault s.idx.toNat n.toNat
  | .ldB _ => rangeFault s.idx.toNat 3
  | .stRegs x | .ldRegs x => rangeFault s.idx.toNat (x.val + 1)
  | .cls | .jp _ | .seImm _ _ | .sneImm _ _ | .seReg _ _ | .sneReg _ _
  | .ldImm _ _ | .addImm _ _ | .ldReg _ _ | .orReg _ _ | .andReg _ _ | .xorReg _ _ | .addReg _ _
  | .sub _ _ | .subn _ _ | .shr _ _ | .shl _ _ | .ldI _ | .rnd _ _
  | .ldVxDt _ | .ldVxK _ | .ldDtVx _ | .ldStVx _ | .addI _ | .ldF _ => none

/-! ### The invariant and the reachable states -/

/-- What every reachable state satisfies: canonical memory; a `pc` a completed step can leave and stack
entries a CALL can push (R24); a stack within its capacity (R27); and a fault status that names the
instruction still at `pc`, its word absent exactly when the fetch there fails (R212, R213). -/
structure State.Inv (s : State) : Prop where
  mem : Memory.wf s.mem = true
  pc : s.pc.toNat ≤ 0x1002
  depth : s.stack.length ≤ 16
  entries : ∀ v ∈ s.stack, v.toNat ≤ 0x1000
  faultPc : ∀ f, s.fault = some f → f.pc = s.pc
  faultWord : ∀ f, s.fault = some f → (f.word = none ↔ s.pc.toNat > 0xFFE)

/-- A state some host brings about: construction from some image, then any schedule of host operations
(R10, R228). -/
def Reachable (s : State) : Prop :=
  ∃ rom s0 ops, construct rom = .next s0 ∧ hostRun ops s0 = .next s

/-- Is sprite bit set for row `r`, column `c` of the display, for a sprite of `rows` at column `x0`, row
`y0`, bit 7 leftmost and nothing wrapped (R225; D17, log 19)? -/
def spriteCovers (rows : List Byte) (x0 y0 r c : Nat) : Bool :=
  decide (y0 ≤ r ∧ x0 ≤ c ∧ c < x0 + 8) && ((rows[r - y0]?).getD 0).getLsbD (7 - (c - x0))

end Sys2Proof.Machine
end

