-- ==== Sys2Proof/Certificates/Slice0/Obligations.lean ====
section
/-! DEFINITION. The statements for the provers, from the numbered rules of spec/. Each docstring names the rule or the section it formalises, and the log entry of every choice it rests on. -/

open Sys2Proof Sys2Proof.Machine

/-! ### Encoding and decoding -/

/-- Decoding the encoding of a well-formed instruction gives it back, with every operand (30_encoding.md
sections 1 to 4). The opcode map is log 7. -/
def Obligations.DecodeOfEncode : Prop :=
  ∀ i : Instr, i.wellFormed = true → decode (encode i) = i

/-- Every 16-bit word is the encoding of what it decodes to, which is well formed: decoding drops no bit
(30_encoding.md sections 2, 3). -/
def Obligations.EncodeOfDecode : Prop :=
  ∀ w : Word, encode (decode w) = w ∧ (decode w).wellFormed = true

/-- There are 35 descriptors and no word matches two of them (R77, which the spec marks as derived). -/
def Obligations.DecodeRowsDisjoint : Prop :=
  decodeTable.length = 35 ∧
    decodeTable.Pairwise fun d e => ∀ w : Word, ¬(w &&& d.mask = d.code ∧ w &&& e.mask = e.code)

/-- R75: the first descriptor, in order, whose masked word is its code decides the instruction, and a
word that matches none is Invalid. -/
def Obligations.DecodeFirstMatch : Prop :=
  ∀ w : Word,
    (∀ before d after, decodeTable = before ++ d :: after →
      (∀ e ∈ before, w &&& e.mask ≠ e.code) → w &&& d.mask = d.code →
        decode w = d.opcode.instr (extract d.format.encoding w) w) ∧
    ((∀ d ∈ decodeTable, w &&& d.mask ≠ d.code) → decode w = .invalid w)

/-- The words that decode to Invalid are exactly those that R78's table lists class by class (the table
follows from log 7's opcode map). -/
def Obligations.InvalidWordsExact : Prop :=
  ∀ w : Word, (decode w).opcode = .invalid ↔ invalidWord w = true

/-- The five words of the source's scenarios, the three exact words, and vectors of 95_test_vectors.md
decode to the instructions they stand for. -/
def Obligations.SpecWordsDecode : Prop :=
  decode 0x600A = .ldImm 0 0x0A ∧ decode 0x6105 = .ldImm 1 0x05 ∧ decode 0x8014 = .addReg 0 1 ∧
  decode 0xA222 = .ldI 0x222 ∧ decode 0xF055 = .stRegs 0 ∧ decode 0x0000 = .invalid 0 ∧
  decode 0x00E0 = .cls ∧ decode 0x00EE = .ret ∧ decode 0x5120 = .seReg 1 2 ∧
  decode 0x5121 = .invalid 0x5121 ∧ decode 0xE19E = .skp 1 ∧ decode 0xF10A = .ldVxK 1 ∧
  decode 0xB123 = .jpV0 0x123 ∧ decode 0xD7E9 = .drw 7 14 9

/-- Operand extraction, field by field as numbers: x is bits 11:8, y bits 7:4, nnn bits 11:0, the
immediate bits 7:0 or 3:0, and a field the format lacks is zero (30_encoding.md sections 1 and 2; the
assignment of masks to formats is the spec's decision D4). -/
def Obligations.ExtractedFields : Prop :=
  ∀ (f : Format) (w : Word),
    let o := extract f.encoding w
    o.regX.val = (match f with | .none | .nnn => 0 | .xkk | .xy | .xyn | .x => w.toNat / 256 % 16) ∧
    o.regY.val = (match f with | .none | .nnn | .xkk | .x => 0 | .xy | .xyn => w.toNat / 16 % 16) ∧
    o.address.toNat = (match f with | .nnn => w.toNat % 4096 | .none | .xkk | .xy | .xyn | .x => 0) ∧
    o.immediate.toNat =
      (match f with | .xkk => w.toNat % 256 | .xyn => w.toNat % 16 | .none | .nnn | .xy | .x => 0)

/-! ### The step and the faults -/

/-- A step of an engine that is not faulted runs the instruction that the two bytes at `pc` decode to,
high byte first; nothing is added around `exec` (30_encoding.md section 6; the fetch check is the
spec's decision D9, log 14). -/
def Obligations.StepRunsDecodedInstruction : Prop :=
  ∀ s : State, s.fault = none → s.pc.toNat ≤ 0xFFE →
    step s = exec (decode (BitVec.ofNat 16
      ((Memory.read s.mem s.pc.toNat).toNat * 256 + (Memory.read s.mem (s.pc.toNat + 1)).toNat))) s

/-- A fetch that would leave memory takes MemoryOutOfBounds for its lower address out of bounds, with no
word, and changes nothing else (60_exceptions.md section 1; the spec's decisions D9, D12; logs 1, 14). -/
def Obligations.FetchOutOfBoundsFaults : Prop :=
  ∀ s : State, s.fault = none → s.pc.toNat > 0xFFE →
    step s = .next { s with
      fault := some ⟨.memoryOutOfBounds (if s.pc.toNat > 0xFFF then s.pc.toNat else 0x1000), s.pc, none⟩ }

/-- A faulted engine's step changes nothing and returns the same fault (60_exceptions.md section 1; the
spec's decision D12, log 2). -/
def Obligations.FaultIsSticky : Prop :=
  ∀ (s : State) (f : FaultStatus), s.fault = some f → step s = .next s ∧ stepReturn s = some f

/-- Faults are precise: a step that takes one leaves every other piece of state, `pc` among them, as it
was, records the address it fetched from, and returns that fault (60_exceptions.md section 1; the spec's
decisions D12, D13; log 1). -/
def Obligations.FaultsArePrecise : Prop :=
  ∀ (s t : State) (f : FaultStatus), s.fault = none → step s = .next t → t.fault = some f →
    t = { s with fault := some f } ∧ f.pc = s.pc ∧ stepReturn s = some f

/-- Every instruction raises exactly the fault that the table of fault conditions gives it in the state,
and where the table gives none it completes with the fault status unchanged (60_exceptions.md section 1;
the spec's decisions D10, D12, D14, D15; logs 1, 10, 15, 17). -/
def Obligations.FaultsExactlyWhenTabled : Prop :=
  ∀ (i : Instr) (s : State),
    match faultOf i s with
    | some c => Raises i s c
    | none => Completes i s fun t => t.fault = s.fault

/-- THE MODEL'S CHOICE (logs 1, 2; DEDUCED): every step, from every state, answers a next state. Where the
spec's step returns Ok the next state is the instruction's; where it returns Err (30_encoding.md section
6, 60_exceptions.md section 1) the model takes the fault as a next state whose fault status is set, and a
faulted engine's step as the same state again. No instruction is refused. -/
def Obligations.StepAnswersNext : Prop := ∀ s : State, ∃ t, step s = .next t

/-! ### Invariants -/

/-- Every step keeps the invariant, from every state that meets it: canonical memory, `pc` at most 0x1002
and pushed values at most 0x1000 (R24's derived bounds), stack depth at most 16, and a fault status that
names the instruction at `pc` (10_state.md sections 2 and 4, 60_exceptions.md section 1; canonical memory is
the model's own form, log 5; the depth is the spec's decision D10, log 10; what a fault records and leaves
its decisions D12, D13, logs 1, 2). -/
def Obligations.StepKeepsInvariant : Prop :=
  ∀ s t : State, s.Inv → step s = .next t → t.Inv

/-- The state after reset meets the invariant (10_state.md section 9; log 4; the invariant's own choices are
named at StepKeepsInvariant). -/
def Obligations.ResetMeetsInvariant : Prop := State.reset.Inv

/-- Every state that a host can bring about, from any image by any schedule of steps, ticks and key
events, meets the invariant (00_scope.md section 4, 70_reset_and_hazards.md section 1; the host's operations are
the spec's decision D1, log 23; the invariant rests on its decisions D10, D12, D13, logs 10, 1, 2, and on
the model's own form of memory, log 5). -/
def Obligations.ReachableStatesMeetInvariant : Prop := ∀ s : State, Reachable s → s.Inv

/-- `pc` stays even across a step while it is even, the stack's entries are even and the target of a JP or
CALL is even (10_state.md section 2: the derived reading of the source's invariant; the spec's decision D8,
log 13). -/
def Obligations.PcStaysEven : Prop :=
  ∀ (i : Instr) (s t : State), s.pc.toNat % 2 = 0 → (∀ v ∈ s.stack, v.toNat % 2 = 0) →
    (∀ nnn, (i = .jp nnn ∨ i = .call nnn) → nnn.toNat % 2 = 0) → exec i s = .next t →
    t.pc.toNat % 2 = 0 ∧ ∀ v ∈ t.stack, v.toNat % 2 = 0

/-! ### Reset and construction -/

/-- What reset leaves: the values of 10_state.md section 9 and 20_memory.md section 2, every byte of memory
among them (the register values are the spec's decision D19, log 4; the bytes outside the font its
decision D20, log 5; the font's bytes its default, log 6). `draws` is the model's own (log 8) and not
stated. -/
def Obligations.ResetValues : Prop :=
  (∀ r, State.reset.reg r = 0) ∧ State.reset.idx = 0 ∧ State.reset.pc = 0x200 ∧
  State.reset.stack = [] ∧ State.reset.dt = 0 ∧ State.reset.st = 0 ∧ soundState State.reset = false ∧
  State.reset.latch = .notWaiting ∧ State.reset.latch.wait = false ∧ State.reset.latch.newKey = false ∧
  State.reset.lastKey = 0 ∧ State.reset.fault = none ∧
  (∀ k, State.reset.keyIsDown k = false) ∧ (∀ r c, Display.pixel State.reset.disp r c = false) ∧
  (∀ a, Memory.read State.reset.mem a = if a < 80 then (Config.font[a]?).getD 0 else 0)

/-- Construction loads an image of at most 3584 bytes at 0x200, over the font and zeros, with every other
piece of state at reset, and refuses a longer one by RomTooLarge, code 7 (20_memory.md section 2,
60_exceptions.md section 1, 70_reset_and_hazards.md section 1; the spec's decisions D13, D19 to D23; logs 1,
4, 5, 6, 9, 21, 22). -/
def Obligations.ConstructionLoadsImage : Prop :=
  ∀ rom : List Byte,
    if rom.length ≤ 3584 then
      ∃ s, construct rom = .next s ∧ Frame [.mem] State.reset s ∧
        ∀ a, Memory.read s.mem a =
          if 0x200 ≤ a ∧ a < 0x200 + rom.length then (rom[a - 0x200]?).getD 0
          else if a < 80 then (Config.font[a]?).getD 0 else 0
    else construct rom = .refused (.romTooLarge rom.length) ∧
      Refusal.constructionCode (.romTooLarge rom.length) = some 7

/-! ### Frames over all instructions -/

/-- Every instruction's frame: a next state agrees with the one before on the fault status where none is
taken, on every component its rule does not name, on every register it may not write, and on every
byte of memory outside the addresses it stores to (00_scope.md section 4: the frame rule is the spec's
decision D5, log 13; `draws` is the model's own, log 8). -/
def Obligations.ExecWritesOnlyNamedState : Prop :=
  ∀ (i : Instr) (s t : State), exec i s = .next t →
    Frame (.fault :: writesOf i) s t ∧ (faultOf i s = none → t.fault = s.fault) ∧
      (∀ r, mayWriteReg i r = false → t.reg r = s.reg r) ∧
      ∀ a, mayStore i s a = false → Memory.read t.mem a = Memory.read s.mem a

/-- VF changes only by the six instructions that write it as a flag or by an instruction that names it as
its destination (10_state.md section 1; the frame is the spec's decision D5, log 13). -/
def Obligations.FlagRegisterWriters : Prop :=
  ∀ (i : Instr) (s t : State), exec i s = .next t → t.reg 15 ≠ s.reg 15 →
    i.opcode ∈ [.addReg, .sub, .subn, .shr, .shl, .drw] ∨
      i = .ldRegs 15 ∨ i = .ldVxDt 15 ∨ i = .ldVxK 15 ∨
      (∃ kk, i = .ldImm 15 kk ∨ i = .addImm 15 kk ∨ i = .rnd 15 kk) ∨
      ∃ y, i = .ldReg 15 y ∨ i = .orReg 15 y ∨ i = .andReg 15 y ∨ i = .xorReg 15 y

/-- The key state influences no instruction but SKP and SKNP: with other keys, every other instruction does
the same (10_state.md sections 8 and 10). -/
def Obligations.KeysSeenOnlyByKeySkips : Prop :=
  ∀ (i : Instr) (s t : State) (keys : Vector Bool 16), i.opcode ≠ .skp → i.opcode ≠ .sknp →
    exec i s = .next t → exec i { s with keys := keys } = .next { t with keys := keys }

/-- No instruction reads the sound timer: with another value in ST every instruction does the same, and ST
keeps that value unless the instruction is LD ST (10_state.md section 5). -/
def Obligations.SoundTimerReadByNone : Prop :=
  ∀ (i : Instr) (s t : State) (b : Byte), exec i s = .next t →
    exec i { s with st := b } =
      .next { t with st := if i.opcode = .ldStVx then t.st else b }

/-! ### Control transfer -/

/-- INVALID always raises InvalidOpcode and JP V0, nnn always UnimplementedOpcode; each records its own
word and its address, and leaves everything else, `pc` among it, unchanged (40_control.md; what a fault
records and leaves is the spec's decisions D12, D13, log 1; that Bnnn raises is its decision D31, log 27). -/
def Obligations.InvalidAndOffsetJumpRaise : Prop :=
  ∀ (w : Word) (nnn : BitVec 12) (s : State),
    exec (.invalid w) s = .next { s with fault := some ⟨.invalidOpcode, s.pc, some w⟩ } ∧
    exec (.jpV0 nnn) s = .next { s with
      fault := some ⟨.unimplementedOpcode, s.pc, some (BitVec.ofNat 16 (0xB000 + nnn.toNat))⟩ }

/-- R101, R224: CLS sets every pixel to false and leaves VF alone; `pc` advances. Its frame is in
ExecWritesOnlyNamedState, as that of every instruction below whose statement gives none. -/
def Obligations.ClsClearsEveryPixel : Prop :=
  ∀ s : State, Completes .cls s fun t =>
    (∀ r c, Display.pixel t.disp r c = false) ∧ t.reg 15 = s.reg 15 ∧ t.pc = s.pc + 2

/-- RET pops the last pushed address into `pc` and writes nothing else; an empty stack raises
StackUnderflow (40_control.md; the frame is the spec's decision D5, log 13; what the fault records and
leaves its decisions D12, D13, log 1). -/
def Obligations.RetPopsReturnAddress : Prop :=
  (∀ (s : State) (rest : List Word) (v : Word), s.stack = rest ++ [v] →
    Completes .ret s fun t => t.pc = v ∧ t.stack = rest ∧ Frame [.pc, .stack] s t) ∧
  ∀ s : State, s.stack = [] → Raises .ret s .stackUnderflow

/-- R103: JP sets `pc` to its zero-extended 12-bit target, an odd one too, and writes no flag. -/
def Obligations.JpSetsPc : Prop :=
  ∀ (nnn : BitVec 12) (s : State), Completes (.jp nnn) s fun t =>
    t.pc.toNat = nnn.toNat ∧ t.reg 15 = s.reg 15

/-- CALL pushes the address after itself and jumps, while the stack is not full; at depth 16 it raises
StackOverflow (40_control.md, 10_state.md section 4; the depth is the spec's decision D10, log 10; the frame
its decision D5, log 13; what the fault records and leaves its decisions D12, D13, log 1). -/
def Obligations.CallPushesReturnAddress : Prop :=
  ∀ (nnn : BitVec 12) (s : State),
    if s.stack.length = 16 then Raises (.call nnn) s (.stackOverflow 16)
    else Completes (.call nnn) s fun t =>
      t.pc.toNat = nnn.toNat ∧ t.stack = s.stack ++ [s.pc + 2] ∧ Frame [.pc, .stack] s t

/-- A RET at a CALL's target returns to the address after the CALL and leaves the state as an instruction
without effect would (95_test_vectors.md Part 1, Scenario D; 10_state.md section 4; that nothing else
changes is the frame rule, the spec's decision D5, log 13; the depth its decision D10, log 10). -/
def Obligations.CallThenRetReturns : Prop :=
  ∀ (nnn : BitVec 12) (s : State), s.stack.length < 16 →
    Completes (.call nnn) s fun t =>
      t.pc.toNat = nnn.toNat ∧ exec .ret t = .next { s with pc := s.pc + 2 }

/-- R105, R106: SE Vx, kk skips when Vx = kk, SNE Vx, kk when they differ; a skip leaves `pc` 4 past the
instruction, no skip 2, modulo 2^16; no flag is written. -/
def Obligations.ImmediateSkips : Prop :=
  ∀ (x : Reg) (kk : Byte) (s : State),
    (Completes (.seImm x kk) s fun t =>
      t.pc.toNat = (s.pc.toNat + if s.reg x = kk then 4 else 2) % 65536 ∧ t.reg 15 = s.reg 15) ∧
    Completes (.sneImm x kk) s fun t =>
      t.pc.toNat = (s.pc.toNat + if s.reg x = kk then 2 else 4) % 65536 ∧ t.reg 15 = s.reg 15

/-- R107, R108: SE Vx, Vy skips when the registers are equal (always when x = y), SNE Vx, Vy when they
differ (never when x = y); no flag is written. -/
def Obligations.RegisterSkips : Prop :=
  ∀ (x y : Reg) (s : State),
    (Completes (.seReg x y) s fun t =>
      t.pc.toNat = (s.pc.toNat + if s.reg x = s.reg y then 4 else 2) % 65536 ∧ t.reg 15 = s.reg 15) ∧
    Completes (.sneReg x y) s fun t =>
      t.pc.toNat = (s.pc.toNat + if s.reg x = s.reg y then 2 else 4) % 65536 ∧ t.reg 15 = s.reg 15

/-! ### ALU -/

/-- R131, R133: LD Vx, kk and LD Vx, Vy write the destination, and VF only when x = 15. -/
def Obligations.RegisterLoads : Prop :=
  ∀ (x y : Reg) (kk : Byte) (s : State),
    (Completes (.ldImm x kk) s fun t =>
      t.reg x = kk ∧ (x ≠ 15 → t.reg 15 = s.reg 15) ∧ t.pc = s.pc + 2) ∧
    Completes (.ldReg x y) s fun t =>
      t.reg x = s.reg y ∧ (x ≠ 15 → t.reg 15 = s.reg 15) ∧ t.pc = s.pc + 2

/-- R132: ADD Vx, kk wraps modulo 256 and writes no flag: VF is unchanged unless x = 15, and then takes
the sum as a plain register. -/
def Obligations.AddImmediateWraps : Prop :=
  ∀ (x : Reg) (kk : Byte) (s : State), Completes (.addImm x kk) s fun t =>
    (t.reg x).toNat = ((s.reg x).toNat + kk.toNat) % 256 ∧ (x ≠ 15 → t.reg 15 = s.reg 15) ∧
      t.pc = s.pc + 2

/-- R134 to R136: OR, AND and XOR act bit by bit on the destination and write no flag: VF is unchanged
unless x = 15. -/
def Obligations.BitwiseOperations : Prop :=
  ∀ (x y : Reg) (s : State),
    (Completes (.orReg x y) s fun t =>
      (∀ n, (t.reg x).getLsbD n = ((s.reg x).getLsbD n || (s.reg y).getLsbD n)) ∧
        (x ≠ 15 → t.reg 15 = s.reg 15) ∧ t.pc = s.pc + 2) ∧
    (Completes (.andReg x y) s fun t =>
      (∀ n, (t.reg x).getLsbD n = ((s.reg x).getLsbD n && (s.reg y).getLsbD n)) ∧
        (x ≠ 15 → t.reg 15 = s.reg 15) ∧ t.pc = s.pc + 2) ∧
    Completes (.xorReg x y) s fun t =>
      (∀ n, (t.reg x).getLsbD n = ((s.reg x).getLsbD n ^^ (s.reg y).getLsbD n)) ∧
        (x ≠ 15 → t.reg 15 = s.reg 15) ∧ t.pc = s.pc + 2

/-- R137: ADD Vx, Vy: the sum modulo 256 in Vx, then the carry in VF, which wins when x = 15 (R137's own
pseudocode and corner case; the write order is also the spec's decision D6, log 12). -/
def Obligations.AddWithCarry : Prop :=
  ∀ (x y : Reg) (s : State), Completes (.addReg x y) s fun t =>
    (t.reg 15).toNat = (if (s.reg x).toNat + (s.reg y).toNat > 255 then 1 else 0) ∧
    (x ≠ 15 → (t.reg x).toNat = ((s.reg x).toNat + (s.reg y).toNat) % 256) ∧
    t.pc = s.pc + 2

/-- R138: SUB Vx, Vy: the difference modulo 256 in Vx, then VF = 1 exactly when Vy <= Vx, which wins when
x = 15 (log 12). -/
def Obligations.SubNoBorrow : Prop :=
  ∀ (x y : Reg) (s : State), Completes (.sub x y) s fun t =>
    (t.reg 15).toNat = (if (s.reg y).toNat ≤ (s.reg x).toNat then 1 else 0) ∧
    (x ≠ 15 → (t.reg x).toNat = ((s.reg x).toNat + 256 - (s.reg y).toNat) % 256) ∧
    t.pc = s.pc + 2

/-- SUBN Vx, Vy: Vy - Vx modulo 256 in Vx, then VF = 0 exactly when Vy > Vx: the value SAME_AS_SUB of
P_SUBN_VF that this hardware takes (41_alu.md section 4; the spec's decision D7, log 11; the write order its decision D6, log
12; the frame its decision D5, log 13). -/
def Obligations.SubnReversedFlag : Prop :=
  ∀ (x y : Reg) (s : State), Completes (.subn x y) s fun t =>
    (t.reg 15).toNat = (if (s.reg y).toNat > (s.reg x).toNat then 0 else 1) ∧
    (x ≠ 15 → (t.reg x).toNat = ((s.reg y).toNat + 256 - (s.reg x).toNat) % 256) ∧
    t.pc = s.pc + 2 ∧ RegsFrame [x, 15] s t ∧ Frame [.regs, .pc] s t

/-- R140, R141: SHR and SHL shift Vx by one, whatever y is, and VF ends as the bit shifted out, also when
x = 15 (log 12). -/
def Obligations.ShiftsByOne : Prop :=
  ∀ (x y : Reg) (s : State),
    (Completes (.shr x y) s fun t =>
      (t.reg 15).toNat = (s.reg x).toNat % 2 ∧
      (x ≠ 15 → (t.reg x).toNat = (s.reg x).toNat / 2) ∧
      t.pc = s.pc + 2) ∧
    Completes (.shl x y) s fun t =>
      (t.reg 15).toNat = (s.reg x).toNat / 128 ∧
      (x ≠ 15 → (t.reg x).toNat = (s.reg x).toNat * 2 % 256) ∧
      t.pc = s.pc + 2

/-- RND Vx, kk: the draw, a free value, masked by kk; no bit outside kk is set, whatever the draw, and
kk = 0 gives 0; one draw is counted (41_alu.md section 6; the draw is under no law, the spec's decision
D24, log 8; the frame its decision D5, log 13). -/
def Obligations.RandomIsMasked : Prop :=
  ∀ (x : Reg) (kk : Byte) (s : State), Completes (.rnd x kk) s fun t =>
    t.reg x = Config.randomByte s.draws &&& kk ∧
    (∀ n, kk.getLsbD n = false → (t.reg x).getLsbD n = false) ∧ (kk = 0 → t.reg x = 0) ∧
    t.draws = s.draws + 1 ∧ t.pc = s.pc + 2 ∧ RegsFrame [x] s t ∧ Frame [.regs, .pc, .draws] s t

/-! ### The index register and memory -/

/-- R160, R162: LD I takes its zero-extended address, LD F five times the register, unmasked; no flag is
written. -/
def Obligations.IndexLoads : Prop :=
  ∀ (nnn : BitVec 12) (x : Reg) (s : State),
    (Completes (.ldI nnn) s fun t =>
      t.idx.toNat = nnn.toNat ∧ t.reg 15 = s.reg 15 ∧ t.pc = s.pc + 2) ∧
    Completes (.ldF x) s fun t =>
      t.idx.toNat = (s.reg x).toNat * 5 ∧ t.reg 15 = s.reg 15 ∧ t.pc = s.pc + 2

/-- ADD I, Vx wraps modulo 2^16, without a fault and without a flag (42_index_memory.md section 2; the wrap
is the spec's decision D11, log 16; the frame its decision D5, log 13). -/
def Obligations.AddIndexWraps : Prop :=
  ∀ (x : Reg) (s : State), Completes (.addI x) s fun t =>
    t.idx.toNat = (s.idx.toNat + (s.reg x).toNat) % 65536 ∧ t.pc = s.pc + 2 ∧ Frame [.idx, .pc] s t

/-- LD B stores the hundreds, tens and ones digits at I, I+1, I+2 and no other byte; past 0xFFF it raises
MemoryOutOfBounds for the lowest address and writes nothing (42_index_memory.md section 3; the spec's
decisions D5, D12, D14; logs 1, 13, 15). -/
def Obligations.BcdStoresDigits : Prop :=
  ∀ (x : Reg) (s : State),
    if s.indexAddr 0 + 3 ≤ 0x1000 then
      Completes (.ldB x) s fun t =>
        (Memory.read t.mem (s.indexAddr 0)).toNat = (s.reg x).toNat / 100 ∧
        (Memory.read t.mem (s.indexAddr 0 + 1)).toNat = (s.reg x).toNat / 10 % 10 ∧
        (Memory.read t.mem (s.indexAddr 0 + 2)).toNat = (s.reg x).toNat % 10 ∧
        (∀ a, (a < s.indexAddr 0 ∨ s.indexAddr 0 + 3 ≤ a) →
          Memory.read t.mem a = Memory.read s.mem a) ∧
        t.pc = s.pc + 2 ∧ Frame [.mem, .pc] s t
    else Raises (.ldB x) s
      (.memoryOutOfBounds (if s.indexAddr 0 ≤ 0xFFF then 0x1000 else s.indexAddr 0))

/-- LD [I], Vx stores V0 to Vx at I to I+x and no other byte, I unchanged; past 0xFFF it raises
MemoryOutOfBounds for the lowest address and writes nothing (42_index_memory.md section 3; the spec's
decisions D5, D12, D14; logs 1, 13, 15). -/
def Obligations.StoreRegistersBlock : Prop :=
  ∀ (x : Reg) (s : State),
    if s.indexAddr 0 + (x.val + 1) ≤ 0x1000 then
      Completes (.stRegs x) s fun t =>
        (∀ r : Reg, r ≤ x → Memory.read t.mem (s.indexAddr 0 + r.val) = s.reg r) ∧
        (∀ a, (a < s.indexAddr 0 ∨ s.indexAddr 0 + (x.val + 1) ≤ a) →
          Memory.read t.mem a = Memory.read s.mem a) ∧
        t.pc = s.pc + 2 ∧ Frame [.mem, .pc] s t
    else Raises (.stRegs x) s
      (.memoryOutOfBounds (if s.indexAddr 0 ≤ 0xFFF then 0x1000 else s.indexAddr 0))

/-- LD Vx, [I] loads V0 to Vx from I to I+x, the registers above x, I and all of memory unchanged; past
0xFFF it raises MemoryOutOfBounds for the lowest address and loads nothing (42_index_memory.md section 3;
the spec's decisions D5, D12, D14; logs 1, 13, 15). -/
def Obligations.LoadRegistersBlock : Prop :=
  ∀ (x : Reg) (s : State),
    if s.indexAddr 0 + (x.val + 1) ≤ 0x1000 then
      Completes (.ldRegs x) s fun t =>
        (∀ r : Reg, t.reg r = if r ≤ x then Memory.read s.mem (s.indexAddr 0 + r.val) else s.reg r) ∧
        t.pc = s.pc + 2 ∧ Frame [.regs, .pc] s t
    else Raises (.ldRegs x) s
      (.memoryOutOfBounds (if s.indexAddr 0 ≤ 0xFFF then 0x1000 else s.indexAddr 0))

/-- Fetch sees stores at once: after LD [I], Vx with x >= 1 and I at the next instruction, the next fetch
reads V0 as the high byte and V1 as the low byte (20_memory.md sections 3 and 4, where the spec marks it
as derived). -/
def Obligations.FetchSeesStores : Prop :=
  ∀ (x : Reg) (s : State), 1 ≤ x → s.indexAddr 0 = s.pc.toNat + 2 →
    s.indexAddr 0 + (x.val + 1) ≤ 0x1000 →
    Completes (.stRegs x) s fun t =>
      t.fetchWord = .ok (BitVec.ofNat 16 ((s.reg 0).toNat * 256 + (s.reg 1).toNat))

/-- Two canonical memories that read the same at every address are the same data (20_memory.md section 1;
the listed form of memory is the model's own, log 5). -/
def Obligations.CanonicalMemoryUnique : Prop :=
  ∀ m n : Memory, Memory.wf m = true → Memory.wf n = true →
    (∀ a, Memory.read m a = Memory.read n a) → m = n

/-! ### Display -/

/-- DRW: with the position and rows read first, every pixel ends as itself xor the sprite's pixel there,
wrapped by position and clipped at the edges, and VF ends 1 exactly when some set pixel was unset; a
sprite that would be read past 0xFFF raises MemoryOutOfBounds and draws nothing; n = 0 draws nothing
(43_io_timers.md section 1, 60_exceptions.md section 4; the spec's decisions D5, D12, D14, D16, D17; logs
13, 1, 15, 18, 19). -/
def Obligations.DrawXorsSprite : Prop :=
  ∀ (x y : Reg) (n : BitVec 4) (s : State),
    let rows := (List.range n.toNat).map fun k => Memory.read s.mem (s.indexAddr k)
    let covers := spriteCovers rows ((s.reg x).toNat % 64) ((s.reg y).toNat % 32)
    if n = 0 ∨ s.indexAddr 0 + n.toNat ≤ 0x1000 then
      Completes (.drw x y n) s fun t =>
        (∀ r c, r < 32 → c < 64 →
          Display.pixel t.disp r c = (Display.pixel s.disp r c ^^ covers r c)) ∧
        (t.reg 15 = 1 ∨ t.reg 15 = 0) ∧
        (t.reg 15 = 1 ↔ ∃ r c, r < 32 ∧ c < 64 ∧ Display.pixel s.disp r c = true ∧ covers r c = true) ∧
        t.pc = s.pc + 2 ∧ RegsFrame [15] s t ∧ Frame [.regs, .disp, .pc] s t
    else Raises (.drw x y n) s
      (.memoryOutOfBounds (if s.indexAddr 0 ≤ 0xFFF then 0x1000 else s.indexAddr 0))

/-- Drawing the same sprite twice at the same position restores the display, and on a clear display the
first draw reports no collision while the second reports one exactly when the first set some pixel
(43_io_timers.md section 1 and 95_test_vectors.md, property S11). -/
def Obligations.DrawTwiceErases : Prop :=
  ∀ (d : Display) (x y : Nat) (rows : List Byte),
    let first := Display.drawSprite d x y rows
    let second := Display.drawSprite first.1 x y rows
    second.1 = d ∧
      ((∀ r c, Display.pixel d r c = false) →
        first.2 = false ∧ (second.2 = true ↔ ∃ r c, Display.pixel first.1 r c = true))

/-! ### Keypad and timers -/

/-- SKP skips when the key that Vx names is down, SKNP when it is up, and a value above 15 raises
KeyIndexOutOfRange (43_io_timers.md section 2; the fault is the spec's decision D15, log 17, what it leaves
its decision D12, log 1, and the frame its decision D5, log 13). -/
def Obligations.KeySkips : Prop :=
  ∀ (x : Reg) (s : State),
    if h : (s.reg x).toNat < 16 then
      (Completes (.skp x) s fun t =>
        t.pc.toNat = (s.pc.toNat + if s.keyIsDown ⟨(s.reg x).toNat, h⟩ = true then 4 else 2) % 65536 ∧
          Frame [.pc] s t) ∧
      Completes (.sknp x) s fun t =>
        t.pc.toNat = (s.pc.toNat + if s.keyIsDown ⟨(s.reg x).toNat, h⟩ = true then 2 else 4) % 65536 ∧
          Frame [.pc] s t
    else
      Raises (.skp x) s (.keyIndexOutOfRange (s.reg x)) ∧
        Raises (.sknp x) s (.keyIndexOutOfRange (s.reg x))

/-- R183, R185, R186: LD Vx, DT reads the delay timer and leaves it, LD DT, Vx and LD ST, Vx write their
timer, with the sound on exactly when ST is not 0; no flag is written but VF as the destination. -/
def Obligations.TimerInstructions : Prop :=
  ∀ (x : Reg) (s : State),
    (Completes (.ldVxDt x) s fun t =>
      t.reg x = s.dt ∧ t.dt = s.dt ∧ (x ≠ 15 → t.reg 15 = s.reg 15) ∧ t.pc = s.pc + 2) ∧
    (Completes (.ldDtVx x) s fun t => t.dt = s.reg x ∧ t.reg 15 = s.reg 15 ∧ t.pc = s.pc + 2) ∧
    Completes (.ldStVx x) s fun t =>
      t.st = s.reg x ∧ (soundState t = true ↔ s.reg x ≠ 0) ∧ t.reg 15 = s.reg 15 ∧ t.pc = s.pc + 2

/-- LD Vx, K: the first execution begins to wait and stays on the instruction, a waiting one without a key
stays, and one with a key stores it, ends the wait and goes on (43_io_timers.md section 3; the latch's
details are the spec's decision D18, log 20; the frame its decision D5, log 13). -/
def Obligations.WaitForKey : Prop :=
  ∀ (x : Reg) (s : State), Completes (.ldVxK x) s fun t =>
    match s.latch with
    | .notWaiting => t.latch = .waitingNoKey ∧ Frame [.latch] s t
    | .waitingNoKey => Frame [] s t
    | .waitingKeyReceived =>
      (t.reg x).toNat = s.lastKey.val ∧ t.latch = .notWaiting ∧ t.pc = s.pc + 2 ∧ RegsFrame [x] s t ∧
        Frame [.regs, .latch, .pc] s t

/-- A wait persists until a key-down: however often an engine on LD Vx, K is stepped without one, `pc`
stays and only the latch changes (60_exceptions.md section 6, 70_reset_and_hazards.md section 3; log 20). -/
def Obligations.WaitPersistsWithoutKey : Prop :=
  ∀ (n : Nat) (x : Reg) (s : State) (w : Word), s.fault = none → s.fetchWord = .ok w →
    decode w = .ldVxK x → s.latch ≠ .waitingKeyReceived →
    Sys2Proof.core.run (n + 1) s = .next { s with latch := .waitingNoKey }

/-- A key-down in a wait ends it: the wait begun by LD Vx, K, a key-down of k among other key-ups, and the
next step leave k in Vx and `pc` past the instruction (43_io_timers.md section 3, 60_exceptions.md
section 4; log 20). -/
def Obligations.KeyDownEndsWait : Prop :=
  ∀ (k j : Nat) (x : Reg) (s : State) (w : Word), k < 16 → j < 16 → s.fault = none →
    s.fetchWord = .ok w → decode w = .ldVxK x → s.latch ≠ .waitingKeyReceived →
    ∃ t, hostRun [.step, .keyDown k, .keyUp j, .step] s = .next t ∧
      (t.reg x).toNat = k ∧ t.pc = s.pc + 2 ∧ t.latch = .notWaiting ∧ t.fault = none

/-- A tick takes one from each timer and never goes below zero, so n ticks take n with a floor of zero; it
changes nothing else, and the sound is on exactly while fewer ticks have passed than ST held
(60_exceptions.md section 3, 10_state.md section 5; that a tick changes nothing else in every engine state
is the spec's decision D25, log 23). -/
def Obligations.TicksCountDown : Prop :=
  ∀ (n : Nat) (s : State),
    ∃ t, hostRun (List.replicate n .tickTimers) s = .next t ∧
      t.dt.toNat = s.dt.toNat - n ∧ t.st.toNat = s.st.toNat - n ∧
      (soundState t = true ↔ n < s.st.toNat) ∧ Frame [.dt, .st] s t

/-- A key event sets or clears that key alone; a key-down is latched exactly when the latch waits, the last
one staying, and a key-up leaves the latch; a code above 15 is refused (60_exceptions.md section 4; the
spec's decision D18, log 20). -/
def Obligations.KeyEvents : Prop :=
  ∀ (k : Nat) (s : State),
    if h : k < 16 then
      (∃ t, keyDown k s = .next t ∧
        (∀ q : Key, t.keyIsDown q = (decide (q.val = k) || s.keyIsDown q)) ∧
        t.latch = (if s.latch = .notWaiting then .notWaiting else .waitingKeyReceived) ∧
        t.lastKey = (if s.latch = .notWaiting then s.lastKey else ⟨k, h⟩) ∧
        Frame [.keys, .latch, .lastKey] s t) ∧
      ∃ t, keyUp k s = .next t ∧
        (∀ q : Key, t.keyIsDown q = (!decide (q.val = k) && s.keyIsDown q)) ∧ Frame [.keys] s t
    else keyDown k s = .refused (.keyCodeOutOfRange k) ∧ keyUp k s = .refused (.keyCodeOutOfRange k)

/-- The Keypad's `last_key` is read only where the latch is WaitingKeyReceived: with another value there,
every instruction in every other latch value does the same and leaves that value (10_state.md section 6
and 43_io_timers.md section 3; log 20). -/
def Obligations.LastKeyReadOnlyWhenReceived : Prop :=
  ∀ (i : Instr) (s t : State) (k : Key), s.latch ≠ .waitingKeyReceived → exec i s = .next t →
    exec i { s with lastKey := k } = .next { t with lastKey := k }
end

