-- ==== Sys2Proof/Laws/State.lean ====
section
/-! SUPPORT. One simp lemma for each field and each named update of the state, and for each register after each update: later proofs rewrite with these and unfold no record update. -/

namespace Sys2Proof.Machine

/-! ### setReg -/

@[simp] theorem State.setReg_v (s : State) (x : Reg) (b : Byte) : (s.setReg x b).v = s.v.set x b := rfl
@[simp] theorem State.setReg_idx (s : State) (x : Reg) (b : Byte) : (s.setReg x b).idx = s.idx := rfl
@[simp] theorem State.setReg_pc (s : State) (x : Reg) (b : Byte) : (s.setReg x b).pc = s.pc := rfl
@[simp] theorem State.setReg_stack (s : State) (x : Reg) (b : Byte) : (s.setReg x b).stack = s.stack := rfl
@[simp] theorem State.setReg_dt (s : State) (x : Reg) (b : Byte) : (s.setReg x b).dt = s.dt := rfl
@[simp] theorem State.setReg_st (s : State) (x : Reg) (b : Byte) : (s.setReg x b).st = s.st := rfl
@[simp] theorem State.setReg_latch (s : State) (x : Reg) (b : Byte) : (s.setReg x b).latch = s.latch := rfl
@[simp] theorem State.setReg_lastKey (s : State) (x : Reg) (b : Byte) : (s.setReg x b).lastKey = s.lastKey := rfl
@[simp] theorem State.setReg_fault (s : State) (x : Reg) (b : Byte) : (s.setReg x b).fault = s.fault := rfl
@[simp] theorem State.setReg_mem (s : State) (x : Reg) (b : Byte) : (s.setReg x b).mem = s.mem := rfl
@[simp] theorem State.setReg_keys (s : State) (x : Reg) (b : Byte) : (s.setReg x b).keys = s.keys := rfl
@[simp] theorem State.setReg_disp (s : State) (x : Reg) (b : Byte) : (s.setReg x b).disp = s.disp := rfl
@[simp] theorem State.setReg_draws (s : State) (x : Reg) (b : Byte) : (s.setReg x b).draws = s.draws := rfl

/-! ### setRegFlag -/

@[simp] theorem State.setRegFlag_v (s : State) (x : Reg) (r : Byte) (f : Bool) : (s.setRegFlag x r f).v = (s.v.set x r).set VF (flagByte f) := rfl
@[simp] theorem State.setRegFlag_idx (s : State) (x : Reg) (r : Byte) (f : Bool) : (s.setRegFlag x r f).idx = s.idx := rfl
@[simp] theorem State.setRegFlag_pc (s : State) (x : Reg) (r : Byte) (f : Bool) : (s.setRegFlag x r f).pc = s.pc := rfl
@[simp] theorem State.setRegFlag_stack (s : State) (x : Reg) (r : Byte) (f : Bool) : (s.setRegFlag x r f).stack = s.stack := rfl
@[simp] theorem State.setRegFlag_dt (s : State) (x : Reg) (r : Byte) (f : Bool) : (s.setRegFlag x r f).dt = s.dt := rfl
@[simp] theorem State.setRegFlag_st (s : State) (x : Reg) (r : Byte) (f : Bool) : (s.setRegFlag x r f).st = s.st := rfl
@[simp] theorem State.setRegFlag_latch (s : State) (x : Reg) (r : Byte) (f : Bool) : (s.setRegFlag x r f).latch = s.latch := rfl
@[simp] theorem State.setRegFlag_lastKey (s : State) (x : Reg) (r : Byte) (f : Bool) : (s.setRegFlag x r f).lastKey = s.lastKey := rfl
@[simp] theorem State.setRegFlag_fault (s : State) (x : Reg) (r : Byte) (f : Bool) : (s.setRegFlag x r f).fault = s.fault := rfl
@[simp] theorem State.setRegFlag_mem (s : State) (x : Reg) (r : Byte) (f : Bool) : (s.setRegFlag x r f).mem = s.mem := rfl
@[simp] theorem State.setRegFlag_keys (s : State) (x : Reg) (r : Byte) (f : Bool) : (s.setRegFlag x r f).keys = s.keys := rfl
@[simp] theorem State.setRegFlag_disp (s : State) (x : Reg) (r : Byte) (f : Bool) : (s.setRegFlag x r f).disp = s.disp := rfl
@[simp] theorem State.setRegFlag_draws (s : State) (x : Reg) (r : Byte) (f : Bool) : (s.setRegFlag x r f).draws = s.draws := rfl

/-! ### advance -/

@[simp] theorem State.advance_v (s : State) : (s.advance).v = s.v := rfl
@[simp] theorem State.advance_idx (s : State) : (s.advance).idx = s.idx := rfl
@[simp] theorem State.advance_pc (s : State) : (s.advance).pc = s.pc + 2 := rfl
@[simp] theorem State.advance_stack (s : State) : (s.advance).stack = s.stack := rfl
@[simp] theorem State.advance_dt (s : State) : (s.advance).dt = s.dt := rfl
@[simp] theorem State.advance_st (s : State) : (s.advance).st = s.st := rfl
@[simp] theorem State.advance_latch (s : State) : (s.advance).latch = s.latch := rfl
@[simp] theorem State.advance_lastKey (s : State) : (s.advance).lastKey = s.lastKey := rfl
@[simp] theorem State.advance_fault (s : State) : (s.advance).fault = s.fault := rfl
@[simp] theorem State.advance_mem (s : State) : (s.advance).mem = s.mem := rfl
@[simp] theorem State.advance_keys (s : State) : (s.advance).keys = s.keys := rfl
@[simp] theorem State.advance_disp (s : State) : (s.advance).disp = s.disp := rfl
@[simp] theorem State.advance_draws (s : State) : (s.advance).draws = s.draws := rfl

/-! ### jump -/

@[simp] theorem State.jump_v (s : State) (a : Word) : (s.jump a).v = s.v := rfl
@[simp] theorem State.jump_idx (s : State) (a : Word) : (s.jump a).idx = s.idx := rfl
@[simp] theorem State.jump_pc (s : State) (a : Word) : (s.jump a).pc = a := rfl
@[simp] theorem State.jump_stack (s : State) (a : Word) : (s.jump a).stack = s.stack := rfl
@[simp] theorem State.jump_dt (s : State) (a : Word) : (s.jump a).dt = s.dt := rfl
@[simp] theorem State.jump_st (s : State) (a : Word) : (s.jump a).st = s.st := rfl
@[simp] theorem State.jump_latch (s : State) (a : Word) : (s.jump a).latch = s.latch := rfl
@[simp] theorem State.jump_lastKey (s : State) (a : Word) : (s.jump a).lastKey = s.lastKey := rfl
@[simp] theorem State.jump_fault (s : State) (a : Word) : (s.jump a).fault = s.fault := rfl
@[simp] theorem State.jump_mem (s : State) (a : Word) : (s.jump a).mem = s.mem := rfl
@[simp] theorem State.jump_keys (s : State) (a : Word) : (s.jump a).keys = s.keys := rfl
@[simp] theorem State.jump_disp (s : State) (a : Word) : (s.jump a).disp = s.disp := rfl
@[simp] theorem State.jump_draws (s : State) (a : Word) : (s.jump a).draws = s.draws := rfl

/-! ### rollBack -/

@[simp] theorem State.rollBack_v (s : State) : (s.rollBack).v = s.v := rfl
@[simp] theorem State.rollBack_idx (s : State) : (s.rollBack).idx = s.idx := rfl
@[simp] theorem State.rollBack_pc (s : State) : (s.rollBack).pc = s.pc - 2 := rfl
@[simp] theorem State.rollBack_stack (s : State) : (s.rollBack).stack = s.stack := rfl
@[simp] theorem State.rollBack_dt (s : State) : (s.rollBack).dt = s.dt := rfl
@[simp] theorem State.rollBack_st (s : State) : (s.rollBack).st = s.st := rfl
@[simp] theorem State.rollBack_latch (s : State) : (s.rollBack).latch = s.latch := rfl
@[simp] theorem State.rollBack_lastKey (s : State) : (s.rollBack).lastKey = s.lastKey := rfl
@[simp] theorem State.rollBack_fault (s : State) : (s.rollBack).fault = s.fault := rfl
@[simp] theorem State.rollBack_mem (s : State) : (s.rollBack).mem = s.mem := rfl
@[simp] theorem State.rollBack_keys (s : State) : (s.rollBack).keys = s.keys := rfl
@[simp] theorem State.rollBack_disp (s : State) : (s.rollBack).disp = s.disp := rfl
@[simp] theorem State.rollBack_draws (s : State) : (s.rollBack).draws = s.draws := rfl

/-! ### takeFault -/

@[simp] theorem State.takeFault_v (s : State) (c : Fault) (w : Option Word) : (s.takeFault c w).v = s.v := rfl
@[simp] theorem State.takeFault_idx (s : State) (c : Fault) (w : Option Word) : (s.takeFault c w).idx = s.idx := rfl
@[simp] theorem State.takeFault_pc (s : State) (c : Fault) (w : Option Word) : (s.takeFault c w).pc = s.pc := rfl
@[simp] theorem State.takeFault_stack (s : State) (c : Fault) (w : Option Word) : (s.takeFault c w).stack = s.stack := rfl
@[simp] theorem State.takeFault_dt (s : State) (c : Fault) (w : Option Word) : (s.takeFault c w).dt = s.dt := rfl
@[simp] theorem State.takeFault_st (s : State) (c : Fault) (w : Option Word) : (s.takeFault c w).st = s.st := rfl
@[simp] theorem State.takeFault_latch (s : State) (c : Fault) (w : Option Word) : (s.takeFault c w).latch = s.latch := rfl
@[simp] theorem State.takeFault_lastKey (s : State) (c : Fault) (w : Option Word) : (s.takeFault c w).lastKey = s.lastKey := rfl
@[simp] theorem State.takeFault_fault (s : State) (c : Fault) (w : Option Word) : (s.takeFault c w).fault = some ⟨c, s.pc, w⟩ := rfl
@[simp] theorem State.takeFault_mem (s : State) (c : Fault) (w : Option Word) : (s.takeFault c w).mem = s.mem := rfl
@[simp] theorem State.takeFault_keys (s : State) (c : Fault) (w : Option Word) : (s.takeFault c w).keys = s.keys := rfl
@[simp] theorem State.takeFault_disp (s : State) (c : Fault) (w : Option Word) : (s.takeFault c w).disp = s.disp := rfl
@[simp] theorem State.takeFault_draws (s : State) (c : Fault) (w : Option Word) : (s.takeFault c w).draws = s.draws := rfl

/-! ### skipIf -/

@[simp] theorem State.skipIf_v (s : State) (b : Bool) : (s.skipIf b).v = s.v := by cases b <;> rfl
@[simp] theorem State.skipIf_idx (s : State) (b : Bool) : (s.skipIf b).idx = s.idx := by cases b <;> rfl
@[simp] theorem State.skipIf_pc (s : State) (b : Bool) :
    (s.skipIf b).pc = if b then s.pc + 2 else s.pc := by cases b <;> rfl
@[simp] theorem State.skipIf_stack (s : State) (b : Bool) : (s.skipIf b).stack = s.stack := by cases b <;> rfl
@[simp] theorem State.skipIf_dt (s : State) (b : Bool) : (s.skipIf b).dt = s.dt := by cases b <;> rfl
@[simp] theorem State.skipIf_st (s : State) (b : Bool) : (s.skipIf b).st = s.st := by cases b <;> rfl
@[simp] theorem State.skipIf_latch (s : State) (b : Bool) : (s.skipIf b).latch = s.latch := by cases b <;> rfl
@[simp] theorem State.skipIf_lastKey (s : State) (b : Bool) : (s.skipIf b).lastKey = s.lastKey := by cases b <;> rfl
@[simp] theorem State.skipIf_fault (s : State) (b : Bool) : (s.skipIf b).fault = s.fault := by cases b <;> rfl
@[simp] theorem State.skipIf_mem (s : State) (b : Bool) : (s.skipIf b).mem = s.mem := by cases b <;> rfl
@[simp] theorem State.skipIf_keys (s : State) (b : Bool) : (s.skipIf b).keys = s.keys := by cases b <;> rfl
@[simp] theorem State.skipIf_disp (s : State) (b : Bool) : (s.skipIf b).disp = s.disp := by cases b <;> rfl
@[simp] theorem State.skipIf_draws (s : State) (b : Bool) : (s.skipIf b).draws = s.draws := by cases b <;> rfl

/-! ### latchKey -/

@[simp] theorem State.latchKey_v (s : State) (k : Key) : (s.latchKey k).v = s.v := by
  cases h : s.latch <;> simp [State.latchKey, h]
@[simp] theorem State.latchKey_idx (s : State) (k : Key) : (s.latchKey k).idx = s.idx := by
  cases h : s.latch <;> simp [State.latchKey, h]
@[simp] theorem State.latchKey_pc (s : State) (k : Key) : (s.latchKey k).pc = s.pc := by
  cases h : s.latch <;> simp [State.latchKey, h]
@[simp] theorem State.latchKey_stack (s : State) (k : Key) : (s.latchKey k).stack = s.stack := by
  cases h : s.latch <;> simp [State.latchKey, h]
@[simp] theorem State.latchKey_dt (s : State) (k : Key) : (s.latchKey k).dt = s.dt := by
  cases h : s.latch <;> simp [State.latchKey, h]
@[simp] theorem State.latchKey_st (s : State) (k : Key) : (s.latchKey k).st = s.st := by
  cases h : s.latch <;> simp [State.latchKey, h]
@[simp] theorem State.latchKey_latch (s : State) (k : Key) :
    (s.latchKey k).latch = if s.latch = .notWaiting then .notWaiting else .waitingKeyReceived := by
  cases h : s.latch <;> simp [State.latchKey, h]
@[simp] theorem State.latchKey_lastKey (s : State) (k : Key) :
    (s.latchKey k).lastKey = if s.latch = .notWaiting then s.lastKey else k := by
  cases h : s.latch <;> simp [State.latchKey, h]
@[simp] theorem State.latchKey_fault (s : State) (k : Key) : (s.latchKey k).fault = s.fault := by
  cases h : s.latch <;> simp [State.latchKey, h]
@[simp] theorem State.latchKey_mem (s : State) (k : Key) : (s.latchKey k).mem = s.mem := by
  cases h : s.latch <;> simp [State.latchKey, h]
@[simp] theorem State.latchKey_keys (s : State) (k : Key) : (s.latchKey k).keys = s.keys := by
  cases h : s.latch <;> simp [State.latchKey, h]
@[simp] theorem State.latchKey_disp (s : State) (k : Key) : (s.latchKey k).disp = s.disp := by
  cases h : s.latch <;> simp [State.latchKey, h]
@[simp] theorem State.latchKey_draws (s : State) (k : Key) : (s.latchKey k).draws = s.draws := by
  cases h : s.latch <;> simp [State.latchKey, h]

/-! ### Registers after each update -/

theorem State.reg_eq (s : State) (x : Reg) : s.reg x = s.v[x] := rfl

/-- What a register holds after a register write (R8). -/
theorem State.reg_setReg (s : State) (x r : Reg) (b : Byte) :
    (s.setReg x b).reg r = if r = x then b else s.reg r := by
  simp only [State.reg, State.setReg, Fin.getElem_fin, Vector.getElem_set, Fin.ext_iff, eq_comm]

@[simp] theorem State.reg_setReg_same (s : State) (x : Reg) (b : Byte) : (s.setReg x b).reg x = b := by
  simp [State.reg_setReg]

@[simp] theorem State.reg_setReg_ne (s : State) {x r : Reg} (b : Byte) (h : r ≠ x) :
    (s.setReg x b).reg r = s.reg r := by
  simp [State.reg_setReg, h]

/-- What a register holds after the ALU's two writes: VF ends as the flag (R130). -/
theorem State.reg_setRegFlag (s : State) (x r : Reg) (b : Byte) (f : Bool) :
    (s.setRegFlag x b f).reg r = if r = VF then flagByte f else if r = x then b else s.reg r := by
  simp only [State.setRegFlag, State.reg_setReg]

@[simp] theorem State.reg_advance (s : State) (r : Reg) : (s.advance).reg r = s.reg r := rfl
@[simp] theorem State.reg_jump (s : State) (a : Word) (r : Reg) : (s.jump a).reg r = s.reg r := rfl
@[simp] theorem State.reg_rollBack (s : State) (r : Reg) : (s.rollBack).reg r = s.reg r := rfl
@[simp] theorem State.reg_takeFault (s : State) (c : Fault) (w : Option Word) (r : Reg) : (s.takeFault c w).reg r = s.reg r := rfl
@[simp] theorem State.keyIsDown_setReg (s : State) (x : Reg) (b : Byte) (k : Key) :
    (s.setReg x b).keyIsDown k = s.keyIsDown k := rfl
@[simp] theorem State.keyIsDown_setRegFlag (s : State) (x : Reg) (b : Byte) (f : Bool) (k : Key) :
    (s.setRegFlag x b f).keyIsDown k = s.keyIsDown k := rfl
@[simp] theorem State.keyIsDown_advance (s : State) (k : Key) :
    (s.advance).keyIsDown k = s.keyIsDown k := rfl
@[simp] theorem State.keyIsDown_jump (s : State) (a : Word) (k : Key) :
    (s.jump a).keyIsDown k = s.keyIsDown k := rfl
@[simp] theorem State.keyIsDown_rollBack (s : State) (k : Key) :
    (s.rollBack).keyIsDown k = s.keyIsDown k := rfl
@[simp] theorem State.keyIsDown_takeFault (s : State) (c : Fault) (w : Option Word) (k : Key) :
    (s.takeFault c w).keyIsDown k = s.keyIsDown k := rfl
@[simp] theorem State.keyIsDown_skipIf (s : State) (b : Bool) (k : Key) :
    (s.skipIf b).keyIsDown k = s.keyIsDown k := by
  cases b <;> rfl
@[simp] theorem State.reg_skipIf (s : State) (b : Bool) (r : Reg) : (s.skipIf b).reg r = s.reg r := by
  cases b <;> rfl
@[simp] theorem State.keyIsDown_latchKey (s : State) (k q : Key) :
    (s.latchKey k).keyIsDown q = s.keyIsDown q := by
  simp [State.keyIsDown]
@[simp] theorem State.reg_latchKey (s : State) (k : Key) (r : Reg) : (s.latchKey k).reg r = s.reg r := by
  simp [State.reg]

/-- An update that keeps the register file keeps every register. -/
@[simp] theorem State.reg_mk_same (s : State) (i p : Word) (sk : List Word) (d t : Byte) (l : Latch) (lk : Key)
    (f : Option FaultStatus) (m : Memory) (k : Vector Bool 16) (di : Display) (n : Nat) (r : Reg) :
    (State.mk s.v i p sk d t l lk f m k di n).reg r = s.reg r := rfl

/-- An update that writes one register writes that register alone. -/
@[simp] theorem State.reg_mk_set (s : State) (x : Reg) (b : Byte) (i p : Word) (sk : List Word) (d t : Byte)
    (l : Latch) (lk : Key) (f : Option FaultStatus) (m : Memory) (k : Vector Bool 16) (di : Display) (n : Nat) (r : Reg) :
    (State.mk (s.v.set x b) i p sk d t l lk f m k di n).reg r = if r = x then b else s.reg r :=
  State.reg_setReg s x r b

/-- An update that keeps the keys keeps every key. -/
@[simp] theorem State.keyIsDown_mk_same (s : State) (v : Vector Byte 16) (i p : Word) (sk : List Word)
    (d t : Byte) (l : Latch) (lk : Key) (f : Option FaultStatus) (m : Memory) (di : Display) (n : Nat) (q : Key) :
    (State.mk v i p sk d t l lk f m s.keys di n).keyIsDown q = s.keyIsDown q := rfl

/-- Equal key vectors are equal keys. -/
theorem State.keyIsDown_congr (s t : State) (h : t.keys = s.keys) (q : Key) :
    t.keyIsDown q = s.keyIsDown q := by
  simp [State.keyIsDown, h]

/-- Equal register files are equal registers. -/
theorem State.reg_congr (s t : State) (h : t.v = s.v) (r : Reg) : t.reg r = s.reg r := by
  simp [State.reg, h]

end Sys2Proof.Machine
end

