-- ==== Sys2Proof/Laws/Memory.lean ====
section
/-! SUPPORT. The laws of memory: what a byte reads as after a write, and that every memory operation keeps the canonical form. -/

namespace Sys2Proof.Machine

@[simp] theorem Memory.read_nil (a : Nat) : Memory.read [] a = Memory.unlisted a := rfl

/-- Erasing an address makes it read as unlisted and leaves every other address alone. -/
theorem Memory.read_erase (m : Memory) (a b : Nat) :
    Memory.read (Memory.erase m a) b = if b = a then Memory.unlisted b else Memory.read m b := by
  induction m with
  | nil => simp [Memory.erase, Memory.read]
  | cons c m ih =>
    obtain ⟨k, u⟩ := c
    by_cases hk : a = k
    · subst hk
      by_cases hb : b = a
      · subst hb; simpa [Memory.erase] using ih
      · simp [Memory.erase, Memory.read, ih, hb]
    · by_cases hb : b = k
      · subst hb
        simp [Memory.erase, Memory.read, hk, Ne.symm hk]
      · simp [Memory.erase, Memory.read, hk, hb, ih]

/-- After erasing, inserting an address makes it read as the value and leaves every other one alone. -/
theorem Memory.read_insert (m : Memory) (a b : Nat) (v : Byte) (h : ∀ c ∈ m, c.1 ≠ a) :
    Memory.read (Memory.insert m a v) b = if b = a then v else Memory.read m b := by
  induction m with
  | nil => by_cases hb : b = a <;> simp [Memory.insert, Memory.read, hb]
  | cons c m ih =>
    obtain ⟨k, u⟩ := c
    have hk : k ≠ a := h (k, u) (by simp)
    have ih' := ih (fun c hc => h c (by simp [hc]))
    by_cases hlt : a < k
    · by_cases hb : b = a <;> simp [Memory.insert, Memory.read, hlt, hb]
    · by_cases hb : b = k
      · subst hb
        simp [Memory.insert, Memory.read, hlt, hk]
      · simp [Memory.insert, Memory.read, hlt, hb, ih']

/-- No entry is left for an erased address. -/
theorem Memory.erase_ne (m : Memory) (a : Nat) : ∀ c ∈ Memory.erase m a, c.1 ≠ a := by
  induction m with
  | nil => simp [Memory.erase]
  | cons c m ih =>
    obtain ⟨k, u⟩ := c
    by_cases hk : a = k
    · simp only [Memory.erase, hk, if_true] at ih ⊢
      exact ih
    · simp only [Memory.erase, hk, if_false]
      intro c hc
      rcases List.mem_cons.1 hc with rfl | hc
      · exact Ne.symm hk
      · exact ih c hc

/-- Every entry left after an erasure was there before. -/
theorem Memory.mem_of_mem_erase (m : Memory) (a : Nat) (c : Host.Cell) (h : c ∈ Memory.erase m a) :
    c ∈ m := by
  induction m with
  | nil => simp [Memory.erase] at h
  | cons d m ih =>
    obtain ⟨k, u⟩ := d
    by_cases hk : a = k
    · exact List.mem_cons_of_mem _ (ih (by simpa [Memory.erase, hk] using h))
    · rcases List.mem_cons.1 (by simpa [Memory.erase, hk] using h) with rfl | h'
      · simp
      · exact List.mem_cons_of_mem _ (ih h')

/-- Read after write: the written address reads as the value, every other one as before (R60). -/
theorem Memory.read_write (m : Memory) (a b : Nat) (v : Byte) :
    Memory.read (Memory.write m a v) b = if b = a then v else Memory.read m b := by
  unfold Memory.write
  split
  · rename_i hv
    rw [Memory.read_erase]
    split <;> simp_all
  · rw [Memory.read_insert _ _ _ _ (Memory.erase_ne m a), Memory.read_erase]
    split <;> simp_all

/-- The entries of an insertion are the new one and the old ones. -/
theorem Memory.mem_insert (m : Memory) (a : Nat) (v : Byte) (c : Host.Cell) :
    c ∈ Memory.insert m a v ↔ c = (a, v) ∨ c ∈ m := by
  induction m with
  | nil => simp [Memory.insert]
  | cons d m ih =>
    obtain ⟨k, u⟩ := d
    by_cases h : a < k
    · simp [Memory.insert, h]
    · simp only [Memory.insert, h, if_false, List.mem_cons, ih]
      tauto

/-- The canonical form, one entry at a time. -/
theorem Memory.wf_cons (a : Nat) (v : Byte) (m : Memory) :
    Memory.wf ((a, v) :: m) = true ↔
      a < 0x1000 ∧ v ≠ Memory.unlisted a ∧ (∀ c ∈ m, a < c.1) ∧ Memory.wf m = true := by
  simp only [Memory.wf, Bool.and_eq_true, decide_eq_true_eq, List.all_eq_true, and_assoc]

/-- Reset memory lists nothing and is canonical. -/
theorem Memory.wf_nil : Memory.wf [] = true := rfl

/-- An erasure keeps the canonical form. -/
theorem Memory.wf_erase (m : Memory) (a : Nat) (h : Memory.wf m = true) :
    Memory.wf (Memory.erase m a) = true := by
  induction m with
  | nil => rfl
  | cons c m ih =>
    obtain ⟨k, u⟩ := c
    obtain ⟨h1, h2, h3, h4⟩ := (Memory.wf_cons k u m).1 h
    by_cases hk : a = k
    · simp only [Memory.erase, hk, if_true] at ih ⊢
      exact ih h4
    · simp only [Memory.erase, hk, if_false]
      exact (Memory.wf_cons _ _ _).2
        ⟨h1, h2, fun c hc => h3 c (Memory.mem_of_mem_erase m a c hc), ih h4⟩

/-- Inserting an address not listed, with a byte other than its reset byte, keeps the canonical form. -/
theorem Memory.wf_insert (m : Memory) (a : Nat) (v : Byte) (h : Memory.wf m = true)
    (ha : a < 0x1000) (hv : v ≠ Memory.unlisted a) (hn : ∀ c ∈ m, c.1 ≠ a) :
    Memory.wf (Memory.insert m a v) = true := by
  induction m with
  | nil => exact (Memory.wf_cons a v []).2 ⟨ha, hv, by simp, rfl⟩
  | cons c m ih =>
    obtain ⟨k, u⟩ := c
    obtain ⟨h1, h2, h3, h4⟩ := (Memory.wf_cons k u m).1 h
    by_cases hlt : a < k
    · simp only [Memory.insert, hlt, if_true]
      refine (Memory.wf_cons _ _ _).2 ⟨ha, hv, fun c hc => ?_, h⟩
      rcases List.mem_cons.1 hc with rfl | hc
      · exact hlt
      · exact lt_trans hlt (h3 c hc)
    · have hka : k ≠ a := hn (k, u) (by simp)
      simp only [Memory.insert, hlt, if_false]
      refine (Memory.wf_cons _ _ _).2
        ⟨h1, h2, fun c hc => ?_, ih h4 (fun c hc => hn c (by simp [hc]))⟩
      rcases (Memory.mem_insert m a v c).1 hc with rfl | hc
      · simp only; omega
      · exact h3 c hc

/-- A write to an address of memory keeps the canonical form. -/
theorem Memory.wf_write (m : Memory) (a : Nat) (v : Byte) (h : Memory.wf m = true) (ha : a < 0x1000) :
    Memory.wf (Memory.write m a v) = true := by
  unfold Memory.write
  split
  · exact Memory.wf_erase m a h
  · rename_i hv
    exact Memory.wf_insert _ a v (Memory.wf_erase m a h) ha hv (Memory.erase_ne m a)

end Sys2Proof.Machine
end

