-- ==== Sys2Proof/Laws/Ops.lean ====
section
/-! SUPPORT. One lemma for each shared operation that says once everything it can do: a handler's run, the checked accesses, the stack, the key operand, the display, the fetch and the step. -/

namespace Sys2Proof.Machine

/-! ### A handler's run -/

theorem runHandler_ok (w : Word) (h : State → Except Fault State) (s t : State)
    (ht : h s.advance = .ok t) : runHandler w h s = .next t := by
  simp [runHandler, ht]

theorem runHandler_error (w : Word) (h : State → Except Fault State) (s : State) (c : Fault)
    (hc : h s.advance = .error c) :
    runHandler w h s = .next { s with fault := some ⟨c, s.pc, some w⟩ } := by
  simp [runHandler, hc, State.takeFault]

/-- Everything a handler's run can do: its own next state, or the fault taken with nothing else kept. -/
theorem runHandler_cases (w : Word) (h : State → Except Fault State) (s t : State)
    (ht : runHandler w h s = .next t) :
    h s.advance = .ok t ∨
      ∃ c, h s.advance = .error c ∧ t = { s with fault := some ⟨c, s.pc, some w⟩ } := by
  cases hh : h s.advance with
  | ok u => rw [runHandler_ok w h s u hh] at ht; simp_all
  | error c => rw [runHandler_error w h s c hh] at ht; simp_all

/-- A handler's run always answers a next state. -/
theorem runHandler_next (w : Word) (h : State → Except Fault State) (s : State) :
    ∃ t, runHandler w h s = .next t := by
  cases hh : h s.advance with
  | ok u => exact ⟨u, runHandler_ok w h s u hh⟩
  | error c => exact ⟨_, runHandler_error w h s c hh⟩

/-! ### Checked accesses -/

/-- The lowest address above 0xFFF among `n` ascending addresses from `a` (R216). -/
def firstOutOfBounds (a : Nat) : Nat := max a 0x1000

/-- A run of reads answers the bytes in order when every address is in memory, else the fault of the
lowest address outside it. -/
theorem State.readBytes_eq (s : State) (a n : Nat) :
    s.readBytes a n =
      if n = 0 ∨ a + n ≤ 0x1000 then
        .ok ((List.range n).map fun k => Memory.read s.mem (a + k))
      else .error (.memoryOutOfBounds (firstOutOfBounds a)) := by
  induction n generalizing a with
  | zero => simp [State.readBytes]
  | succ n ih =>
    by_cases ha : a > 0xFFF
    · rw [if_neg (by omega), firstOutOfBounds, max_eq_left (by omega)]
      simp [State.readBytes, State.memRead, ha]
    · by_cases hn : a + (n + 1) ≤ 0x1000
      · rw [if_pos (Or.inr hn)]
        simp only [State.readBytes, State.memRead, ha, if_false, ih]
        rw [if_pos (by omega)]
        simp [List.range_succ_eq_map, Function.comp_def, Nat.add_assoc, Nat.add_comm 1]
      · rw [if_neg (by omega), firstOutOfBounds]
        simp only [State.readBytes, State.memRead, ha, if_false, ih]
        rw [if_neg (by omega), firstOutOfBounds]
        simp only [Except.error.injEq, Fault.memoryOutOfBounds.injEq]
        omega

/-- Memory after writes at ascending addresses from `a`. -/
def Memory.writeAll (m : Memory) (a : Nat) : List Byte → Memory
  | [] => m
  | b :: bs => Memory.writeAll (Memory.write m a b) (a + 1) bs

/-- A run of writes changes memory alone when every address is in it, else it raises the fault of the
lowest address outside it. -/
theorem State.writeBytes_eq (s : State) (a : Nat) (bs : List Byte) :
    s.writeBytes a bs =
      if bs = [] ∨ a + bs.length ≤ 0x1000 then .ok { s with mem := Memory.writeAll s.mem a bs }
      else .error (.memoryOutOfBounds (firstOutOfBounds a)) := by
  induction bs generalizing s a with
  | nil => simp [State.writeBytes, Memory.writeAll]
  | cons b bs ih =>
    by_cases ha : a > 0xFFF
    · rw [if_neg (by simp; omega), firstOutOfBounds, max_eq_left (by omega)]
      simp [State.writeBytes, State.memWrite, ha]
    · simp only [State.writeBytes, State.memWrite, ha, if_false, ih]
      by_cases hn : a + (bs.length + 1) ≤ 0x1000
      · rw [if_pos (by omega), if_pos (by simp; omega)]
        rfl
      · rw [if_neg (by rintro (rfl | h) <;> simp_all <;> omega), if_neg (by simp; omega),
          firstOutOfBounds, firstOutOfBounds]
        simp only [Except.error.injEq, Fault.memoryOutOfBounds.injEq]
        omega

/-- After ascending writes from `a`, the bytes written read back in order and every other address reads
as before. -/
theorem Memory.read_writeAll (m : Memory) (a : Nat) (bs : List Byte) (c : Nat) :
    Memory.read (Memory.writeAll m a bs) c =
      if a ≤ c then (bs[c - a]?).getD (Memory.read m c) else Memory.read m c := by
  induction bs generalizing m a with
  | nil => simp [Memory.writeAll]
  | cons b bs ih =>
    rw [Memory.writeAll, ih, Memory.read_write]
    by_cases h1 : a + 1 ≤ c
    · have : c - a = (c - (a + 1)) + 1 := by omega
      simp [h1, show a ≤ c by omega, this, show c ≠ a by omega]
    · by_cases h2 : c = a
      · subst h2; simp
      · simp [h1, h2, show ¬ a ≤ c by omega]

/-- Ascending writes inside memory keep the canonical form. -/
theorem Memory.wf_writeAll (m : Memory) (a : Nat) (bs : List Byte) (h : Memory.wf m = true)
    (hb : bs = [] ∨ a + bs.length ≤ 0x1000) : Memory.wf (Memory.writeAll m a bs) = true := by
  induction bs generalizing m a with
  | nil => exact h
  | cons b bs ih =>
    simp at hb
    exact ih _ _ (Memory.wf_write m a b h (by omega)) (Or.inr (by omega))

/-! ### The call stack -/

theorem State.push_full (s : State) (v : Word) (h : s.stack.length = 16) :
    s.push v = .error (.stackOverflow 16) := by
  simp [State.push, Config.stackDepth, h]

theorem State.push_room (s : State) (v : Word) (h : s.stack.length ≠ 16) :
    s.push v = .ok { s with stack := s.stack ++ [v] } := by
  simp [State.push, Config.stackDepth, h]

theorem State.pop_empty (s : State) (h : s.stack = []) : s.pop = .error .stackUnderflow := by
  simp [State.pop, h]

theorem State.pop_concat (s : State) (st : List Word) (v : Word) (h : s.stack = st ++ [v]) :
    s.pop = .ok (v, { s with stack := st }) := by
  simp [State.pop, h]

/-! ### The key operand -/

theorem State.keyOperand_ok (s : State) (x : Reg) (h : (s.reg x).toNat < 16) :
    s.keyOperand x = .ok ⟨(s.reg x).toNat, h⟩ := by
  simp [State.keyOperand, h]

theorem State.keyOperand_error (s : State) (x : Reg) (h : ¬ (s.reg x).toNat < 16) :
    s.keyOperand x = .error (.keyIndexOutOfRange (s.reg x)) := by
  simp [State.keyOperand, h]

/-! ### Register blocks -/

/-- V0 to Vx as a list: one byte for each register, in order. -/
theorem State.regsTo_eq (s : State) (x : Reg) :
    s.regsTo x = (List.range (x.val + 1)).map fun k => s.reg (Fin.ofNat 16 k) := by
  apply List.ext_getElem
  · simp [State.regsTo]
  · intro i h1 h2
    simp at h2
    have hi : i < 16 := by omega
    simp [State.regsTo, State.reg, Nat.mod_eq_of_lt hi]

/-- Loading a list of bytes from register `k` upward: the loaded registers hold them, every other one
holds what it held. -/
theorem State.reg_setRegs (s : State) (k : Nat) (bs : List Byte) (r : Reg) :
    (s.setRegs k bs).reg r = if k ≤ r.val then (bs[r.val - k]?).getD (s.reg r) else s.reg r := by
  induction bs generalizing s k with
  | nil => simp [State.setRegs]
  | cons b bs ih =>
    rw [State.setRegs]
    split
    · rename_i hk
      rw [ih, State.reg_setReg]
      by_cases h1 : k + 1 ≤ r.val
      · have : r.val - k = (r.val - (k + 1)) + 1 := by omega
        simp [h1, show k ≤ r.val by omega, this, Fin.ext_iff, show r.val ≠ k by omega]
      · by_cases h2 : r.val = k
        · subst h2; simp
        · simp [h1, show ¬ k ≤ r.val by omega, Fin.ext_iff, h2]
    · simp [show ¬ k ≤ r.val by omega]

/-- Loading registers changes nothing but registers. -/
theorem State.setRegs_frame (s : State) (k : Nat) (bs : List Byte) :
    s.setRegs k bs = { s with v := (s.setRegs k bs).v } := by
  induction bs generalizing s k with
  | nil => rfl
  | cons b bs ih =>
    rw [State.setRegs]
    split
    · rw [ih]; rfl
    · rfl

/-! ### The display -/

theorem Display.pixel_clear (r c : Nat) : Display.pixel Display.clear r c = false := by
  unfold Display.pixel Display.clear
  split <;> simp

/-- Toggling flips one pixel inside the buffer and no other. -/
theorem Display.pixel_toggle (d : Display) (r c r' c' : Nat) :
    Display.pixel (Display.toggle d r c) r' c' =
      if r' = r ∧ c' = c ∧ r < 32 ∧ c < 64 then !Display.pixel d r' c' else Display.pixel d r' c' := by
  unfold Display.pixel Display.toggle
  by_cases h : r < 32 ∧ c < 64
  · by_cases h' : r' < 32 ∧ c' < 64
    · simp only [h, h', and_self, dif_pos, Vector.getElem_set]
      by_cases hr : r = r'
      · subst hr
        by_cases hc : c = c'
        · subst hc; simp
        · simp [hc, Ne.symm hc]
      · simp [hr, Ne.symm hr]
    · have hf : ¬(r' = r ∧ c' = c ∧ r < 32 ∧ c < 64) := by
        rintro ⟨rfl, rfl, h3⟩; exact h' h3
      rw [dif_neg h', dif_neg h', if_neg hf]
  · have hf : ¬(r' = r ∧ c' = c ∧ r < 32 ∧ c < 64) := fun hh => h hh.2.2
    rw [if_neg hf, dif_neg h]

/-- What one set sprite pixel does to the buffer and to the collision flag. -/
theorem blitPixel_eq (b : Display × Bool) (py px : Nat) :
    blitPixel b py px = (Display.toggle b.1 py px, b.2 || Display.pixel b.1 py px) := by
  unfold blitPixel
  split
  · rfl
  · rename_i h
    have h' : ¬(py < 32 ∧ px < 64) := fun hh => h ⟨hh.2, hh.1⟩
    simp [Display.toggle, Display.pixel, h']

/-! ### The fetch and the step -/

/-- The fetch answers the big-endian word at `pc` when both bytes are in memory, else the fault of the
lower address outside it (R57, R216). -/
theorem State.fetchWord_eq (s : State) :
    s.fetchWord =
      if s.pc.toNat ≤ 0xFFE then
        .ok (wordOfBytes (Memory.read s.mem s.pc.toNat) (Memory.read s.mem (s.pc.toNat + 1)))
      else .error (.memoryOutOfBounds (if s.pc.toNat > 0xFFF then s.pc.toNat else s.pc.toNat + 1)) := by
  unfold State.fetchWord State.memRead
  by_cases h1 : s.pc.toNat > 0xFFF
  · simp [h1, show ¬ s.pc.toNat ≤ 0xFFE by omega]
  · by_cases h2 : s.pc.toNat ≤ 0xFFE
    · simp [h1, h2, show ¬ s.pc.toNat + 1 > 0xFFF by omega]
    · simp [h1, h2, show s.pc.toNat + 1 > 0xFFF by omega]

theorem step_faulted (s : State) (f : FaultStatus) (h : s.fault = some f) : step s = .next s := by
  simp [step, h]

theorem step_fetch_error (s : State) (c : Fault) (h : s.fault = none) (hf : s.fetchWord = .error c) :
    step s = .next { s with fault := some ⟨c, s.pc, none⟩ } := by
  simp [step, h, hf, State.takeFault]

theorem step_exec (s : State) (w : Word) (h : s.fault = none) (hf : s.fetchWord = .ok w) :
    step s = exec (decode w) s := by
  simp [step, h, hf]

/-- The handler of each instruction, run after the default advance (R82, R83). -/
def handlerOf : Instr → State → Except Fault State
  | .invalid _ => handleInvalid
  | .cls => handleCls
  | .ret => handleRet
  | .jp nnn => handleJp nnn
  | .call nnn => handleCall nnn
  | .seImm x kk => handleSeImm x kk
  | .sneImm x kk => handleSneImm x kk
  | .seReg x y => handleSeReg x y
  | .sneReg x y => handleSneReg x y
  | .ldImm x kk => handleLdImm x kk
  | .addImm x kk => handleAddImm x kk
  | .ldReg x y => handleLdReg x y
  | .orReg x y => handleOrReg x y
  | .andReg x y => handleAndReg x y
  | .xorReg x y => handleXorReg x y
  | .addReg x y => handleAddReg x y
  | .sub x y => handleSub x y
  | .subn x y => handleSubn x y
  | .shr x _ => handleShr x
  | .shl x _ => handleShl x
  | .ldI nnn => handleLdI nnn
  | .jpV0 _ => handleJpV0
  | .rnd x kk => handleRnd x kk
  | .drw x y n => handleDrw x y n
  | .skp x => handleSkp x
  | .sknp x => handleSknp x
  | .ldVxDt x => handleLdVxDt x
  | .ldVxK x => handleLdVxK x
  | .ldDtVx x => handleLdDtVx x
  | .ldStVx x => handleLdStVx x
  | .addI x => handleAddI x
  | .ldF x => handleLdF x
  | .ldB x => handleLdB x
  | .stRegs x => handleStRegs x
  | .ldRegs x => handleLdRegs x

/-- Every instruction is its handler run with its own word: so it answers its handler's state, or takes
one fault and keeps nothing else. -/
theorem exec_eq_runHandler (i : Instr) (s : State) :
    exec i s = runHandler (encode i) (handlerOf i) s := by
  cases i <;> rfl

/-- Everything a step can do: nothing while faulted, the fetch's fault, or the decoded instruction. -/
theorem step_cases (s t : State) (h : step s = .next t) :
    (∃ f, s.fault = some f ∧ t = s) ∨
      (s.fault = none ∧ ∃ c, s.fetchWord = .error c ∧ t = { s with fault := some ⟨c, s.pc, none⟩ }) ∨
      (s.fault = none ∧ ∃ w, s.fetchWord = .ok w ∧ exec (decode w) s = .next t) := by
  cases hf : s.fault with
  | some f => rw [step_faulted s f hf] at h; exact .inl ⟨f, rfl, by simpa using h.symm⟩
  | none =>
    cases hw : s.fetchWord with
    | error c =>
      rw [step_fetch_error s c hf hw] at h
      exact .inr (.inl ⟨rfl, c, rfl, by simpa using h.symm⟩)
    | ok w => rw [step_exec s w hf hw] at h; exact .inr (.inr ⟨rfl, w, rfl, h⟩)

/-- The step after placing a word runs exactly it, wherever both its bytes have a place (log 9). -/
theorem fetchWord_withFetchWord (s : State) (nbits w : Nat) (h : s.pc.toNat ≤ 0xFFE) :
    (s.withFetchWord nbits w).fault = none ∧
      (s.withFetchWord nbits w).fetchWord =
        .ok (wordOfBytes (highByte (tableWord nbits w)) (lowByte (tableWord nbits w))) := by
  have hp : s.withFetchWord nbits w =
      { s with mem := Memory.writeAll s.mem s.pc.toNat
                        [highByte (tableWord nbits w), lowByte (tableWord nbits w)], fault := none } := by
    unfold State.withFetchWord State.placeWord
    rw [State.writeBytes_eq, if_pos (by right; simp only [List.length_cons, List.length_nil]; omega)]
  rw [hp]
  refine ⟨rfl, ?_⟩
  rw [State.fetchWord_eq, if_pos h]
  simp [Memory.read_writeAll]

end Sys2Proof.Machine
end

