-- ==== Sys2Proof/Laws/PerInstr.lean ====
section
/-! SUPPORT. The statements made instruction by instruction: the encoder's word of every instruction but Invalid carries the code of that instruction's own row of the decode table under the row's mask (R76). -/

namespace Sys2Proof.Laws

/-- A register index is a 4-bit field: shifted to bits 11:8 it has no other bit. -/
theorem xField_mask (x : Reg) : BitVec.ofNat 16 x.val <<< 8 &&& 0x0F00#16 = BitVec.ofNat 16 x.val <<< 8 := by
  revert x; decide

theorem yField_mask (y : Reg) : BitVec.ofNat 16 y.val <<< 4 &&& 0x00F0#16 = BitVec.ofNat 16 y.val <<< 4 := by
  revert y; decide

theorem nnnField_mask (nnn : BitVec 12) : nnn.setWidth 16 &&& 0x0FFF#16 = nnn.setWidth 16 := by
  ext i hi
  interval_cases i <;> simp [BitVec.getLsbD_of_ge]

theorem kkField_mask (kk : Byte) : kk.setWidth 16 &&& 0x00FF#16 = kk.setWidth 16 := by
  ext i hi
  interval_cases i <;> simp [BitVec.getLsbD_of_ge]

theorem nField_mask (n : BitVec 4) : n.setWidth 16 &&& 0x000F#16 = n.setWidth 16 := by
  ext i hi
  interval_cases i <;> simp [BitVec.getLsbD_of_ge]

/-- A field whose bits lie outside a mask vanishes under it. -/
theorem field_outside (t f m : Word) (ht : t &&& f = t) (hf : f &&& m = 0) : t &&& m = 0 := by
  rw [← ht, BitVec.and_assoc, hf]; simp

/-- Setting a field outside the mask leaves the masked bits alone. -/
theorem or_field_mask (w t f m : Word) (ht : t &&& f = t) (hf : f &&& m = 0) :
    (w ||| t) &&& m = w &&& m := by
  have h := field_outside t f m ht hf
  apply BitVec.eq_of_getLsbD_eq
  intro i _
  have hi : (t &&& m).getLsbD i = false := by rw [h]; simp
  rw [BitVec.getLsbD_and] at hi
  rw [BitVec.getLsbD_and, BitVec.getLsbD_or, BitVec.getLsbD_and]
  cases hm : m.getLsbD i <;> cases ht' : t.getLsbD i <;> simp_all

theorem encodeNNN_mask (c m : Word) (nnn : BitVec 12) (h : 0x0FFF#16 &&& m = 0) :
    encodeNNN c nnn &&& m = c &&& m :=
  or_field_mask _ _ _ _ (nnnField_mask nnn) h

theorem encodeX_mask (c m : Word) (x : Reg) (h : 0x0F00#16 &&& m = 0) :
    encodeX c x &&& m = c &&& m :=
  or_field_mask _ _ _ _ (xField_mask x) h

theorem encodeXKK_mask (c m : Word) (x : Reg) (kk : Byte) (h : 0x0F00#16 &&& m = 0)
    (hk : 0x00FF#16 &&& m = 0) : encodeXKK c x kk &&& m = c &&& m := by
  rw [encodeXKK, or_field_mask _ _ _ _ (kkField_mask kk) hk, encodeX_mask c m x h]

theorem encodeXY_mask (c m : Word) (x y : Reg) (h : 0x0F00#16 &&& m = 0)
    (hy : 0x00F0#16 &&& m = 0) : encodeXY c x y &&& m = c &&& m := by
  rw [encodeXY, or_field_mask _ _ _ _ (yField_mask y) hy, encodeX_mask c m x h]

theorem encodeXYN_mask (c m : Word) (x y : Reg) (n : BitVec 4) (h : 0x0F00#16 &&& m = 0)
    (hy : 0x00F0#16 &&& m = 0) (hn : 0x000F#16 &&& m = 0) :
    encodeXYN c x y n &&& m = c &&& m := by
  rw [encodeXYN, or_field_mask _ _ _ _ (nField_mask n) hn, encodeXY_mask c m x y h hy]

/-- The word of an instruction of rows 1 to 34 matches that instruction's own row. -/
def OwnRow.Statement (i : Instr) : Prop :=
  i.opcode ≠ .invalid →
    ∃ d, d ∈ decodeTable ∧ d.opcode = i.opcode ∧ encode i &&& d.mask = d.code

theorem OwnRow.invalid (w : Word) : OwnRow.Statement (.invalid w) := fun h => absurd rfl h

theorem OwnRow.cls : OwnRow.Statement .cls :=
  fun _ => ⟨⟨.cls, 0x00E0, 0xFFFF, .none⟩, by decide, rfl, by decide⟩

theorem OwnRow.ret : OwnRow.Statement .ret :=
  fun _ => ⟨⟨.ret, 0x00EE, 0xFFFF, .none⟩, by decide, rfl, by decide⟩

theorem OwnRow.jp (nnn : BitVec 12) : OwnRow.Statement (.jp nnn) :=
  fun _ => ⟨⟨.jp, 0x1000, 0xF000, .nnn⟩, by decide, rfl, encodeNNN_mask _ _ nnn (by decide)⟩

theorem OwnRow.call (nnn : BitVec 12) : OwnRow.Statement (.call nnn) :=
  fun _ => ⟨⟨.call, 0x2000, 0xF000, .nnn⟩, by decide, rfl, encodeNNN_mask _ _ nnn (by decide)⟩

theorem OwnRow.seImm (x : Reg) (kk : Byte) : OwnRow.Statement (.seImm x kk) :=
  fun _ => ⟨⟨.seImm, 0x3000, 0xF000, .xkk⟩, by decide, rfl, encodeXKK_mask _ _ x kk (by decide) (by decide)⟩

theorem OwnRow.sneImm (x : Reg) (kk : Byte) : OwnRow.Statement (.sneImm x kk) :=
  fun _ => ⟨⟨.sneImm, 0x4000, 0xF000, .xkk⟩, by decide, rfl, encodeXKK_mask _ _ x kk (by decide) (by decide)⟩

theorem OwnRow.seReg (x y : Reg) : OwnRow.Statement (.seReg x y) :=
  fun _ => ⟨⟨.seReg, 0x5000, 0xF00F, .xy⟩, by decide, rfl, encodeXY_mask _ _ x y (by decide) (by decide)⟩

theorem OwnRow.sneReg (x y : Reg) : OwnRow.Statement (.sneReg x y) :=
  fun _ => ⟨⟨.sneReg, 0x9000, 0xF00F, .xy⟩, by decide, rfl, encodeXY_mask _ _ x y (by decide) (by decide)⟩

theorem OwnRow.ldImm (x : Reg) (kk : Byte) : OwnRow.Statement (.ldImm x kk) :=
  fun _ => ⟨⟨.ldImm, 0x6000, 0xF000, .xkk⟩, by decide, rfl, encodeXKK_mask _ _ x kk (by decide) (by decide)⟩

theorem OwnRow.addImm (x : Reg) (kk : Byte) : OwnRow.Statement (.addImm x kk) :=
  fun _ => ⟨⟨.addImm, 0x7000, 0xF000, .xkk⟩, by decide, rfl, encodeXKK_mask _ _ x kk (by decide) (by decide)⟩

theorem OwnRow.ldReg (x y : Reg) : OwnRow.Statement (.ldReg x y) :=
  fun _ => ⟨⟨.ldReg, 0x8000, 0xF00F, .xy⟩, by decide, rfl, encodeXY_mask _ _ x y (by decide) (by decide)⟩

theorem OwnRow.orReg (x y : Reg) : OwnRow.Statement (.orReg x y) :=
  fun _ => ⟨⟨.orReg, 0x8001, 0xF00F, .xy⟩, by decide, rfl, encodeXY_mask _ _ x y (by decide) (by decide)⟩

theorem OwnRow.andReg (x y : Reg) : OwnRow.Statement (.andReg x y) :=
  fun _ => ⟨⟨.andReg, 0x8002, 0xF00F, .xy⟩, by decide, rfl, encodeXY_mask _ _ x y (by decide) (by decide)⟩

theorem OwnRow.xorReg (x y : Reg) : OwnRow.Statement (.xorReg x y) :=
  fun _ => ⟨⟨.xorReg, 0x8003, 0xF00F, .xy⟩, by decide, rfl, encodeXY_mask _ _ x y (by decide) (by decide)⟩

theorem OwnRow.addReg (x y : Reg) : OwnRow.Statement (.addReg x y) :=
  fun _ => ⟨⟨.addReg, 0x8004, 0xF00F, .xy⟩, by decide, rfl, encodeXY_mask _ _ x y (by decide) (by decide)⟩

theorem OwnRow.sub (x y : Reg) : OwnRow.Statement (.sub x y) :=
  fun _ => ⟨⟨.sub, 0x8005, 0xF00F, .xy⟩, by decide, rfl, encodeXY_mask _ _ x y (by decide) (by decide)⟩

theorem OwnRow.subn (x y : Reg) : OwnRow.Statement (.subn x y) :=
  fun _ => ⟨⟨.subn, 0x8007, 0xF00F, .xy⟩, by decide, rfl, encodeXY_mask _ _ x y (by decide) (by decide)⟩

theorem OwnRow.shr (x y : Reg) : OwnRow.Statement (.shr x y) :=
  fun _ => ⟨⟨.shr, 0x8006, 0xF00F, .xy⟩, by decide, rfl, encodeXY_mask _ _ x y (by decide) (by decide)⟩

theorem OwnRow.shl (x y : Reg) : OwnRow.Statement (.shl x y) :=
  fun _ => ⟨⟨.shl, 0x800E, 0xF00F, .xy⟩, by decide, rfl, encodeXY_mask _ _ x y (by decide) (by decide)⟩

theorem OwnRow.ldI (nnn : BitVec 12) : OwnRow.Statement (.ldI nnn) :=
  fun _ => ⟨⟨.ldI, 0xA000, 0xF000, .nnn⟩, by decide, rfl, encodeNNN_mask _ _ nnn (by decide)⟩

theorem OwnRow.jpV0 (nnn : BitVec 12) : OwnRow.Statement (.jpV0 nnn) :=
  fun _ => ⟨⟨.jpV0, 0xB000, 0xF000, .nnn⟩, by decide, rfl, encodeNNN_mask _ _ nnn (by decide)⟩

theorem OwnRow.rnd (x : Reg) (kk : Byte) : OwnRow.Statement (.rnd x kk) :=
  fun _ => ⟨⟨.rnd, 0xC000, 0xF000, .xkk⟩, by decide, rfl, encodeXKK_mask _ _ x kk (by decide) (by decide)⟩

theorem OwnRow.drw (x y : Reg) (n : BitVec 4) : OwnRow.Statement (.drw x y n) :=
  fun _ => ⟨⟨.drw, 0xD000, 0xF000, .xyn⟩, by decide, rfl, encodeXYN_mask _ _ x y n (by decide) (by decide) (by decide)⟩

theorem OwnRow.skp (x : Reg) : OwnRow.Statement (.skp x) :=
  fun _ => ⟨⟨.skp, 0xE09E, 0xF0FF, .x⟩, by decide, rfl, encodeX_mask _ _ x (by decide)⟩

theorem OwnRow.sknp (x : Reg) : OwnRow.Statement (.sknp x) :=
  fun _ => ⟨⟨.sknp, 0xE0A1, 0xF0FF, .x⟩, by decide, rfl, encodeX_mask _ _ x (by decide)⟩

theorem OwnRow.ldVxDt (x : Reg) : OwnRow.Statement (.ldVxDt x) :=
  fun _ => ⟨⟨.ldVxDt, 0xF007, 0xF0FF, .x⟩, by decide, rfl, encodeX_mask _ _ x (by decide)⟩

theorem OwnRow.ldVxK (x : Reg) : OwnRow.Statement (.ldVxK x) :=
  fun _ => ⟨⟨.ldVxK, 0xF00A, 0xF0FF, .x⟩, by decide, rfl, encodeX_mask _ _ x (by decide)⟩

theorem OwnRow.ldDtVx (x : Reg) : OwnRow.Statement (.ldDtVx x) :=
  fun _ => ⟨⟨.ldDtVx, 0xF015, 0xF0FF, .x⟩, by decide, rfl, encodeX_mask _ _ x (by decide)⟩

theorem OwnRow.ldStVx (x : Reg) : OwnRow.Statement (.ldStVx x) :=
  fun _ => ⟨⟨.ldStVx, 0xF018, 0xF0FF, .x⟩, by decide, rfl, encodeX_mask _ _ x (by decide)⟩

theorem OwnRow.addI (x : Reg) : OwnRow.Statement (.addI x) :=
  fun _ => ⟨⟨.addI, 0xF01E, 0xF0FF, .x⟩, by decide, rfl, encodeX_mask _ _ x (by decide)⟩

theorem OwnRow.ldF (x : Reg) : OwnRow.Statement (.ldF x) :=
  fun _ => ⟨⟨.ldF, 0xF029, 0xF0FF, .x⟩, by decide, rfl, encodeX_mask _ _ x (by decide)⟩

theorem OwnRow.ldB (x : Reg) : OwnRow.Statement (.ldB x) :=
  fun _ => ⟨⟨.ldB, 0xF033, 0xF0FF, .x⟩, by decide, rfl, encodeX_mask _ _ x (by decide)⟩

theorem OwnRow.stRegs (x : Reg) : OwnRow.Statement (.stRegs x) :=
  fun _ => ⟨⟨.stRegs, 0xF055, 0xF0FF, .x⟩, by decide, rfl, encodeX_mask _ _ x (by decide)⟩

theorem OwnRow.ldRegs (x : Reg) : OwnRow.Statement (.ldRegs x) :=
  fun _ => ⟨⟨.ldRegs, 0xF065, 0xF0FF, .x⟩, by decide, rfl, encodeX_mask _ _ x (by decide)⟩

end Sys2Proof.Laws
end

