-- ==== Sys2Proof/Tests/Slice0.lean ====
section
/-! SUPPORT. The model's own tests: expected values are the spec's (95_test_vectors.md and the examples of the rules), never the model's; and one witness for every statement of Certificates/Slice0/Obligations.lean that has hypotheses or clauses. -/

namespace Sys2Proof.Tests

open Sys2Proof.Machine

/-! ### Helpers -/

/-- The state after one step on the word `w`, from `s`. -/
def after (s : State) (w : Nat) : State :=
  match step (s.withFetchWord 16 w) with
  | .next t => t
  | .fault _ => s
  | .refused _ => s

/-- Reset with registers V0, V1, ... set in order. -/
def withRegs (bs : List Byte) : State := State.reset.setRegs 0 bs

/-- Reset with VF set. -/
def withVF (b : Byte) : State := State.reset.setReg VF b

/-- Reset with bytes in memory from an address. -/
def withMem (a : Nat) (bs : List Byte) : State := { State.reset with mem := Memory.writeAll [] a bs }

/-- Three bytes of memory from an address. -/
def three (s : State) (a : Nat) : List Byte :=
  [Memory.read s.mem a, Memory.read s.mem (a + 1), Memory.read s.mem (a + 2)]

/-- The cause and the address of the fault taken, if any. -/
def faultOfState (s : State) : Option (Fault × Word × Option Word) := s.fault.map fun f => (f.cause, f.pc, f.word)

/-- The next state an outcome answers, if any. -/
def nextOf : Host.Outcome State Fault Refusal → Option State
  | .next t => some t
  | .fault _ => none
  | .refused _ => none

/-- The refusal an outcome answers, if any. -/
def refusalOf : Host.Outcome State Fault Refusal → Option Refusal
  | .next _ => none
  | .fault _ => none
  | .refused r => some r

/-- What a decoder of bytes answers, its refusal left out. -/
def decoded : Except DecodeError (Instr × List Byte) → Option (Instr × List Byte)
  | .ok r => some r
  | .error _ => none

/-! ### Well-formedness: an ill-formed term for each class of R78 -/

theorem test_wellFormed_refuses :
    (Instr.invalid 0x00E0).wellFormed = false ∧ (Instr.invalid 0x00EE).wellFormed = false ∧
    (Instr.invalid 0x5120).wellFormed = false ∧ (Instr.invalid 0x8AB7).wellFormed = false ∧
    (Instr.invalid 0x9AB0).wellFormed = false ∧ (Instr.invalid 0xE1A1).wellFormed = false ∧
    (Instr.invalid 0xF265).wellFormed = false ∧ (Instr.invalid 0x1234).wellFormed = false := by decide

theorem test_wellFormed_accepts :
    (Instr.invalid 0x0000).wellFormed = true ∧ (Instr.invalid 0x00E1).wellFormed = true ∧
    (Instr.invalid 0x5121).wellFormed = true ∧ (Instr.invalid 0x8008).wellFormed = true ∧
    (Instr.invalid 0x9121).wellFormed = true ∧ (Instr.invalid 0xE09F).wellFormed = true ∧
    (Instr.invalid 0xF0FF).wellFormed = true ∧ (Instr.drw 15 0 15).wellFormed = true := by decide

/-! ### Decoding: each constructor by a word written out from R76's code and format -/

/-- NONE and NNN rows, and the invalid vectors TD4 to TD6, TD8 to TD11, TD14, TD16 to TD18. -/
theorem test_decode_control :
    decode 0b0000000011100000 = .cls ∧ decode 0b0000000011101110 = .ret ∧
    decode 0b0001101010111100 = .jp 0xABC ∧ decode 0b0010001000010000 = .call 0x210 ∧
    decode 0b0011001101000010 = .seImm 3 0x42 ∧ decode 0b0100001101000010 = .sneImm 3 0x42 ∧
    decode 0b0101000100100000 = .seReg 1 2 ∧ decode 0b1001000100100000 = .sneReg 1 2 ∧
    decode 0b1011001100000000 = .jpV0 0x300 := by decide

theorem test_decode_invalid :
    [0x0000, 0x00E1, 0x0123, 0x0EE0, 0x5121, 0x9121, 0x8008, 0x800F, 0xE09F, 0xF000, 0xF0FF, 0xFFFF].map decode =
      [.invalid 0x0000, .invalid 0x00E1, .invalid 0x0123, .invalid 0x0EE0, .invalid 0x5121, .invalid 0x9121,
       .invalid 0x8008, .invalid 0x800F, .invalid 0xE09F, .invalid 0xF000, .invalid 0xF0FF, .invalid 0xFFFF] := by
  decide

theorem test_decode_alu :
    decode 0b0110110001011111 = .ldImm 12 0x5F ∧ decode 0b0111001000000011 = .addImm 2 0x03 ∧
    decode 0b1000000000010000 = .ldReg 0 1 ∧ decode 0b1000000000010001 = .orReg 0 1 ∧
    decode 0b1000000000010010 = .andReg 0 1 ∧ decode 0b1000000000010011 = .xorReg 0 1 ∧
    decode 0b1000101010110100 = .addReg 10 11 ∧ decode 0b1000000000010101 = .sub 0 1 ∧
    decode 0b1000000100000111 = .subn 1 0 ∧ decode 0b1000000001010110 = .shr 0 5 ∧
    decode 0b1000111100001110 = .shl 15 0 ∧ decode 0b1100001100001111 = .rnd 3 0x0F := by decide

theorem test_decode_memory_io :
    decode 0b1010001000100010 = .ldI 0x222 ∧ decode 0b1111001000011110 = .addI 2 ∧
    decode 0b1111000000101001 = .ldF 0 ∧ decode 0b1111000000110011 = .ldB 0 ∧
    decode 0b1111001101010101 = .stRegs 3 ∧ decode 0b1111001001100101 = .ldRegs 2 ∧
    decode 0b1101011111101001 = .drw 7 14 9 ∧ decode 0b1110010110011110 = .skp 5 ∧
    decode 0b1110010110100001 = .sknp 5 ∧ decode 0b1111101100000111 = .ldVxDt 11 ∧
    decode 0b1111001100001010 = .ldVxK 3 ∧ decode 0b1111101000010101 = .ldDtVx 10 ∧
    decode 0b1111000000011000 = .ldStVx 0 := by decide

/-- Bytes are read high byte first, and a single byte is no instruction (R57, R70). -/
theorem test_decodeBytes :
    decodeTableWord 16 0x6C5F = some (.ldImm 12 0x5F) ∧
    decoded (decodeBytes [0x60, 0x0A, 0x61]) = some (.ldImm 0 0x0A, [0x61]) ∧
    decoded (decodeBytes [0x60]) = none := by decide

/-! ### Control transfer: R100 to R109 and vectors TC1 to TC21 -/

theorem test_invalid_raises :
    faultOfState (after { State.reset with pc := 0x300 } 0x5121) = some (.invalidOpcode, 0x300, some 0x5121) := by decide
theorem test_reset_step_invalid : faultOfState (after State.reset 0x0000) = some (.invalidOpcode, 0x200, some 0) := by decide
theorem test_cls : (after { State.reset with disp := Display.toggle Display.clear 3 5 } 0x00E0).disp = Display.clear := by decide
theorem test_ret_pops :
    let t := after { State.reset with pc := 0x212, stack := [0x206] } 0x00EE
    t.pc = 0x206 ∧ t.stack = [] := by decide
theorem test_ret_underflow :
    let t := after State.reset 0x00EE
    faultOfState t = some (.stackUnderflow, 0x200, some 0x00EE) ∧ t.pc = 0x200 := by decide
theorem test_jp : (after { State.reset with pc := 0x208 } 0x1204).pc = 0x204 := by decide
theorem test_jp_odd : (after State.reset 0x1201).pc = 0x201 := by decide
theorem test_call :
    let t := after { State.reset with pc := 0x204 } 0x2210
    t.pc = 0x210 ∧ t.stack = [0x206] := by decide
theorem test_call_overflow :
    let t := after { State.reset with stack := List.replicate 16 0x202 } 0x2200
    faultOfState t = some (.stackOverflow 16, 0x200, some 0x2200) ∧ t.stack.length = 16 := by decide
theorem test_seImm :
    (after (State.reset.setReg 3 0x42) 0x3342).pc = 0x204 ∧ (after (State.reset.setReg 3 0x41) 0x3342).pc = 0x202 := by decide
theorem test_sneImm :
    (after (State.reset.setReg 3 0x42) 0x4342).pc = 0x202 ∧ (after (State.reset.setReg 3 0x41) 0x4342).pc = 0x204 := by decide
theorem test_seReg : (after (withRegs [0, 7, 7]) 0x5120).pc = 0x204 ∧ (after State.reset 0x5110).pc = 0x204 := by decide
theorem test_sneReg : (after (withRegs [0, 7, 8]) 0x9120).pc = 0x204 ∧ (after State.reset 0x9110).pc = 0x202 := by decide
theorem test_skip_past_top : (after { State.reset with pc := 0xFFE } 0x3000).pc = 0x1002 := by decide
theorem test_jpV0_raises :
    faultOfState (after (State.reset.setReg 0 4) 0xB300) = some (.unimplementedOpcode, 0x200, some 0xB300) := by decide

/-! ### The step: fetch bounds and the sticky fault (R214, R216, TC2, TC17, TC21) -/

theorem test_fetch_bounds :
    (nextOf (step { State.reset with pc := 0xFFF })).bind faultOfState = some (.memoryOutOfBounds 0x1000, 0xFFF, none) ∧
    (nextOf (step { State.reset with pc := 0x1002 })).bind faultOfState =
      some (.memoryOutOfBounds 0x1002, 0x1002, none) := by decide
theorem test_sticky :
    let s := { State.reset with fault := some ⟨.invalidOpcode, 0x202, some 0⟩ }
    nextOf (step s) = some s := by decide

/-! ### ALU: vectors TA1 to TA35 -/

theorem test_ldImm : (after State.reset 0x6A5C).reg 10 = 0x5C ∧ (after State.reset 0x6FAA).reg VF = 0xAA := by decide
theorem test_addImm :
    let t := after (withRegs [0, 0, 0xFF]) 0x7201
    t.reg 2 = 0x00 ∧ t.reg VF = 0x00 := by decide
theorem test_ldReg : (after (withRegs [0, 0x33]) 0x8010).reg 0 = 0x33 := by decide
theorem test_orReg :
    let t := after ((withRegs [0xF0, 0x0F]).setReg VF 0x77) 0x8011
    t.reg 0 = 0xFF ∧ t.reg VF = 0x77 := by decide
theorem test_andReg : (after (withRegs [0xF0, 0x3C]) 0x8012).reg 0 = 0x30 := by decide
theorem test_xorReg : (after (withRegs [0xF0, 0x3C]) 0x8013).reg 0 = 0xCC := by decide
theorem test_addReg_carry :
    let t := after (withRegs [0xFF, 0xFF]) 0x8014
    t.reg 0 = 0xFE ∧ t.reg VF = 1 := by decide
theorem test_addReg_vf :
    (after ((withRegs [0x64]).setReg VF 0xC8) 0x8F04).reg VF = 1 ∧
    (let t := after ((withRegs [0x05]).setReg VF 0x07) 0x80F4
     t.reg 0 = 0x0C ∧ t.reg VF = 0) := by decide
theorem test_sub_borrow :
    let t := after (withRegs [0x05, 0x07]) 0x8015
    t.reg 0 = 0xFE ∧ t.reg VF = 0 := by decide
theorem test_sub_equal :
    let t := after (withRegs [0x42, 0x42]) 0x8015
    t.reg 0 = 0x00 ∧ t.reg VF = 1 := by decide
theorem test_subn :
    let t := after (withRegs [0x07, 0xFC]) 0x8017
    t.reg 0 = 0xF5 ∧ t.reg VF = 0 := by decide
/-- TA22 to TA24 under both values of P_SUBN_VF. -/
theorem test_subnFlag_parameter :
    subnFlag .sameAsSub 0x07 0xFC = false ∧ subnFlag .noBorrow 0x07 0xFC = true ∧
    subnFlag .sameAsSub 0x01 0x00 = true ∧ subnFlag .noBorrow 0x01 0x00 = false ∧
    subnFlag .sameAsSub 0x33 0x33 = true ∧ subnFlag .noBorrow 0x33 0x33 = true := by decide
theorem test_shr :
    let t := after ((withRegs [0x81]).setReg 5 0) 0x8056
    t.reg 0 = 0x40 ∧ t.reg VF = 1 := by decide
theorem test_shr_vf : (after (withVF 0x03) 0x8F06).reg VF = 1 := by decide
theorem test_shl :
    let t := after (withRegs [0x7F]) 0x801E
    t.reg 0 = 0xFE ∧ t.reg VF = 0 := by decide
theorem test_shl_vf : (after (withVF 0x80) 0x8F0E).reg VF = 1 := by decide
theorem test_rnd_masked : (after State.reset 0xC3FF).reg 3 = Config.randomByte 0 &&& 0xFF := by rfl
theorem test_rnd_draws : (after State.reset 0xC30F).draws = 1 := by decide

/-! ### Index register and memory: vectors TM1 to TM19 -/

theorem test_ldI : (after State.reset 0xA222).idx = 0x222 := by decide
theorem test_addI :
    (after { (withRegs [2]) with idx := 0xFFFF } 0xF01E).idx = 0x0001 ∧
    (let t := after { (withRegs [1]) with idx := 0x0FFF } 0xF01E
     t.idx = 0x1000 ∧ t.fault = none) := by decide
theorem test_ldF : (after (withRegs [0x0F]) 0xF029).idx = 0x04B ∧ (after (withRegs [0xFF]) 0xF029).idx = 0x4FB := by decide
theorem test_ldB : three (after { (withRegs [0xFE]) with idx := 0x300 } 0xF033) 0x300 = [2, 5, 4] := by decide
theorem test_ldB_out :
    let t := after { (withRegs [0xFF]) with idx := 0xFFE } 0xF033
    faultOfState t = some (.memoryOutOfBounds 0x1000, 0x200, some 0xF033) ∧ Memory.read t.mem 0xFFE = 0 := by decide
theorem test_stRegs :
    let t := after { (withRegs [0x5A, 0x6B]) with idx := 0x222 } 0xF055
    Memory.read t.mem 0x222 = 0x5A ∧ Memory.read t.mem 0x223 = 0 ∧ t.idx = 0x222 := by decide
theorem test_stRegs_out :
    let t := after { (withRegs [0x11, 0x22, 0x33]) with idx := 0xFFE } 0xF255
    faultOfState t = some (.memoryOutOfBounds 0x1000, 0x200, some 0xF255) ∧ Memory.read t.mem 0xFFE = 0 := by decide
theorem test_ldRegs :
    let t := after { (withMem 0x300 [2, 5, 4, 9]) with idx := 0x300 } 0xF265
    [t.reg 0, t.reg 1, t.reg 2, t.reg 3] = [2, 5, 4, 0] ∧ t.idx = 0x300 := by decide
theorem test_ldRegs_font :
    (after State.reset 0xFF65).v.toList =
      [0xF0, 0x90, 0x90, 0x90, 0xF0, 0x20, 0x60, 0x20, 0x20, 0x70, 0xF0, 0x10, 0xF0, 0x80, 0xF0, 0xF0] := by decide

/-! ### Draw: vectors TG1, TG3 to TG8 -/

theorem test_drw_glyph :
    let t := after { State.reset with idx := 0x023 } 0xD115
    (List.range 5).map (fun r => (List.range 5).map fun c => Display.pixel t.disp r c) =
      [[true, true, true, true, false], [false, false, false, true, false], [false, false, true, false, false],
       [false, true, false, false, false], [false, true, false, false, false]] ∧ t.reg VF = 0 := by decide
theorem test_drw_clips :
    let t := after (withRegs [0x7C, 0x3E]) 0xD015
    (List.range 4).map (fun c => Display.pixel t.disp 31 (60 + c)) = [true, false, false, true] ∧
    Display.pixel t.disp 0 60 = false ∧ Display.pixel t.disp 30 0 = false ∧ t.reg VF = 0 := by decide

/-- R42: the Keypad's three fields at reset. -/
theorem test_reset_latch_fields :
    State.reset.latch.wait = false ∧ State.reset.latch.newKey = false ∧ State.reset.lastKey = 0 := by decide
/-- R211's and R219's codes. -/
theorem test_codes :
    [Fault.invalidOpcode, .unimplementedOpcode, .stackUnderflow, .stackOverflow 16, .memoryOutOfBounds 0x1000,
      .keyIndexOutOfRange 16].map Fault.code = [1, 2, 3, 4, 5, 6] ∧
    (refusalOf (construct (List.replicate 3585 0))).bind Refusal.constructionCode = some 7 := by
  refine ⟨by decide, ?_⟩
  rw [construct, List.length_replicate]
  rfl

/-! ### Keypad and timers: vectors TK1 to TK13, TT1 to TT7 -/

theorem test_skp :
    let s := { (State.reset.setReg 5 0x0A) with keys := State.reset.keys.set 10 true }
    (after s 0xE59E).pc = 0x204 ∧ (after s 0xE5A1).pc = 0x202 := by decide
theorem test_skp_up_and_range :
    (after (State.reset.setReg 5 0x0A) 0xE59E).pc = 0x202 ∧
    faultOfState (after (withRegs [0x10]) 0xE09E) = some (.keyIndexOutOfRange 16, 0x200, some 0xE09E) := by decide
theorem test_sknp : (after (State.reset.setReg 5 0x0A) 0xE5A1).pc = 0x204 := by decide
theorem test_ldVxK_waits :
    let t := after State.reset 0xF30A
    t.latch = .waitingNoKey ∧ t.pc = 0x200 := by decide
theorem test_ldVxK_completes :
    let t := after { State.reset with latch := .waitingKeyReceived, lastKey := 7 } 0xF30A
    t.reg 3 = 7 ∧ t.latch = .notWaiting ∧ t.pc = 0x202 := by decide
theorem test_ldVxDt : (after { State.reset with dt := 0x3C } 0xFB07).reg 11 = 0x3C := by decide
theorem test_ldDtVx : (after (State.reset.setReg 10 0x3C) 0xFA15).dt = 0x3C := by decide
theorem test_ldStVx :
    let t := after (withRegs [2]) 0xF018
    t.st = 2 ∧ soundState t = true ∧ soundState (tickTimers (tickTimers t)) = false := by decide
theorem test_ticks_floor :
    tickTimers (tickTimers { State.reset with dt := 1 }) = State.reset := by decide
/-- TK11: the last key wins, and it is the one stored. -/
theorem test_last_key_wins :
    (nextOf (hostRun [.keyDown 2, .keyDown 9, .keyUp 9] { State.reset with latch := .waitingNoKey })).map
      (fun t => (t.latch, t.lastKey)) = some (.waitingKeyReceived, 9) := by decide
/-- TK13, TK10: a key before the wait is not latched. -/
theorem test_key_before_wait :
    (nextOf (keyDown 7 State.reset)).map (fun t => (t.latch, t.keyIsDown 7)) = some (.notWaiting, true) := by decide
theorem test_key_code_refused :
    refusalOf (keyDown 16 State.reset) = some (.keyCodeOutOfRange 16) := by decide

/-! ### Witnesses for the hypotheses and the clauses of the statements -/

/-- A state whose next instruction is LD V3, K. -/
def onWait : State := State.reset.withFetchWord 16 0xF30A

theorem witness_DecodeOfEncode : (Instr.invalid 0x800F).wellFormed = true ∧ (Instr.drw 15 15 15).wellFormed = true := by decide
/-- Both clauses: row 8 is the first match of 0x9120, and 0x5121 matches none. -/
theorem witness_DecodeFirstMatch :
    decodeTable = decodeTable.take 8 ++ ⟨.sneReg, 0x9000, 0xF00F, .xy⟩ :: decodeTable.drop 9 ∧
    (∀ e ∈ decodeTable.take 8, 0x9120#16 &&& e.mask ≠ e.code) ∧ 0x9120#16 &&& 0xF00F#16 = 0x9000#16 ∧
    (∀ d ∈ decodeTable, 0x5121#16 &&& d.mask ≠ d.code) := by decide
theorem witness_StepRunsDecodedInstruction :
    let s := { State.reset with pc := 0xFFE }
    s.fault = none ∧ s.pc.toNat ≤ 0xFFE := by decide
/-- Both values of the address: the fetch's second byte, and its first. -/
theorem witness_FetchOutOfBoundsFaults :
    (({ State.reset with pc := 0xFFF } : State).pc.toNat > 0xFFE) ∧
    (({ State.reset with pc := 0x1000 } : State).pc.toNat > 0xFFF) ∧ State.reset.fault = none := by decide
theorem witness_FaultIsSticky :
    ({ State.reset with fault := some ⟨.stackUnderflow, 0x200, some 0x00EE⟩ } : State).fault =
      some ⟨.stackUnderflow, 0x200, some 0x00EE⟩ := by decide
theorem witness_FaultsArePrecise :
    State.reset.fault = none ∧
    step State.reset = .next { State.reset with fault := some ⟨.invalidOpcode, 0x200, some 0⟩ } := ⟨rfl, rfl⟩
/-- A tabled fault of each cause, and none. -/
theorem witness_FaultsExactlyWhenTabled :
    faultOf (.invalid 0) State.reset = some .invalidOpcode ∧ faultOf (.jpV0 0) State.reset = some .unimplementedOpcode ∧
    faultOf .ret State.reset = some .stackUnderflow ∧
    faultOf (.call 0) { State.reset with stack := List.replicate 16 0 } = some (.stackOverflow 16) ∧
    faultOf (.ldB 0) { State.reset with idx := 0xFFE } = some (.memoryOutOfBounds 0x1000) ∧
    faultOf (.drw 0 0 1) { State.reset with idx := 0x1001 } = some (.memoryOutOfBounds 0x1001) ∧
    faultOf (.skp 0) (withRegs [16]) = some (.keyIndexOutOfRange 16) ∧ faultOf .cls State.reset = none := by decide
theorem witness_reset_inv : State.reset.Inv :=
  ⟨rfl, by decide, by decide, by simp [State.reset], by simp [State.reset], by simp [State.reset]⟩
theorem witness_StepKeepsInvariant :
    State.reset.Inv ∧ ∃ t, step State.reset = .next t := ⟨witness_reset_inv, _, rfl⟩
theorem witness_ReachableStatesMeetInvariant : Reachable State.reset := ⟨[], State.reset, [], rfl, rfl⟩
theorem witness_PcStaysEven :
    State.reset.pc.toNat % 2 = 0 ∧ (∀ v ∈ State.reset.stack, v.toNat % 2 = 0) ∧
    (∀ nnn, (Instr.jp 0x204 = .jp nnn ∨ Instr.jp 0x204 = .call nnn) → nnn.toNat % 2 = 0) ∧
    ∃ t, exec (.jp 0x204) State.reset = .next t :=
  ⟨by decide, by simp [State.reset], by rintro nnn (h | h) <;> cases h; decide, _, rfl⟩
theorem witness_ConstructionLoadsImage :
    (List.replicate 3584 (0x12 : Byte)).length ≤ 3584 ∧ ¬ (List.replicate 3585 (0x12 : Byte)).length ≤ 3584 := by
  rw [List.length_replicate, List.length_replicate]
  omega
theorem witness_ExecWritesOnlyNamedState :
    (∃ t, exec (.stRegs 1) State.reset = .next t) ∧ mayStore (.stRegs 1) State.reset 1 = true ∧
    mayStore (.stRegs 1) State.reset 2 = false ∧ mayWriteReg (.ldRegs 2) 2 = true ∧
    mayWriteReg (.ldRegs 2) 3 = false ∧ faultOf (.stRegs 1) State.reset = none :=
  ⟨⟨_, rfl⟩, by decide, by decide, by decide, by decide, by decide⟩
theorem witness_FlagRegisterWriters :
    ∃ t, exec (.ldImm 15 1) State.reset = .next t ∧ t.reg 15 ≠ State.reset.reg 15 := ⟨_, rfl, by decide⟩
theorem witness_KeysSeenOnlyByKeySkips :
    Instr.cls.opcode ≠ .skp ∧ Instr.cls.opcode ≠ .sknp ∧ ∃ t, exec .cls State.reset = .next t :=
  ⟨by decide, by decide, _, rfl⟩
theorem witness_SoundTimerReadByNone : ∃ t, exec (.ldStVx 0) State.reset = .next t := ⟨_, rfl⟩
theorem witness_RetPopsReturnAddress :
    ({ State.reset with stack := [0x204, 0x206] } : State).stack = [0x204] ++ [0x206] ∧ State.reset.stack = [] := by decide
/-- The last depth with room, and the full stack. -/
theorem witness_CallPushesReturnAddress :
    ({ State.reset with stack := List.replicate 15 0 } : State).stack.length < 16 ∧
    ({ State.reset with stack := List.replicate 16 0 } : State).stack.length = 16 := by decide
theorem witness_CallThenRetReturns : State.reset.stack.length < 16 := by decide
theorem witness_AluFlagClauses : (0 : Reg) ≠ 15 ∧ (14 : Reg) ≠ 15 := by decide
theorem witness_RandomIsMasked : (0x0F : Byte).getLsbD 4 = false ∧ (0x00 : Byte) = 0 := by decide
/-- LD B at the last address it fits and the first it does not, on each side of 0xFFF. -/
theorem witness_BcdStoresDigits :
    ({ State.reset with idx := 0xFFD } : State).indexAddr 0 + 3 ≤ 0x1000 ∧
    ¬ ({ State.reset with idx := 0xFFE } : State).indexAddr 0 + 3 ≤ 0x1000 ∧
    ({ State.reset with idx := 0xFFF } : State).indexAddr 0 ≤ 0xFFF ∧
    ¬ ({ State.reset with idx := 0x1000 } : State).indexAddr 0 ≤ 0xFFF := by decide
theorem witness_StoreRegistersBlock :
    ({ State.reset with idx := 0xFF0 } : State).indexAddr 0 + ((15 : Reg).val + 1) ≤ 0x1000 ∧
    ¬ ({ State.reset with idx := 0xFF1 } : State).indexAddr 0 + ((15 : Reg).val + 1) ≤ 0x1000 := by decide
theorem witness_LoadRegistersBlock :
    ({ State.reset with idx := 0xFFF } : State).indexAddr 0 + ((0 : Reg).val + 1) ≤ 0x1000 ∧
    ¬ ({ State.reset with idx := 0x1000 } : State).indexAddr 0 + ((0 : Reg).val + 1) ≤ 0x1000 := by decide
/-- The last place where the stored word can be fetched. -/
theorem witness_FetchSeesStores :
    let s := { State.reset with pc := 0xFFC, idx := 0xFFE }
    (1 : Reg) ≤ 1 ∧ s.indexAddr 0 = s.pc.toNat + 2 ∧ s.indexAddr 0 + ((1 : Reg).val + 1) ≤ 0x1000 := by decide
theorem witness_CanonicalMemoryUnique : Memory.wf [(0x000, 0x00), (0x300, 0x01)] = true ∧
    ∀ a, Memory.read [(0x300, 0x01)] a = Memory.read [(0x300, 0x01)] a := ⟨by decide, fun _ => rfl⟩
/-- A sprite that just fits, one that does not, and the empty one wherever I is. -/
theorem witness_DrawXorsSprite :
    ({ State.reset with idx := 0xFFB } : State).indexAddr 0 + (5#4).toNat ≤ 0x1000 ∧
    (¬ (5#4 = 0 ∨ ({ State.reset with idx := 0xFFC } : State).indexAddr 0 + (5#4).toNat ≤ 0x1000)) ∧
    ((0#4 = 0) ∨ ({ State.reset with idx := 0xFFFF } : State).indexAddr 0 + (0#4).toNat ≤ 0x1000) := by decide
theorem witness_DrawTwiceErases : ∀ r c, Display.pixel Display.clear r c = false := Display.pixel_clear
theorem witness_KeySkips : ((withRegs [15]).reg 0).toNat < 16 ∧ ¬ ((withRegs [16]).reg 0).toNat < 16 := by decide
/-- Each case of the latch. -/
theorem witness_WaitForKey :
    State.reset.latch = .notWaiting ∧ ({ State.reset with latch := .waitingNoKey } : State).latch = .waitingNoKey ∧
    ({ State.reset with latch := .waitingKeyReceived, lastKey := 15 } : State).latch = .waitingKeyReceived := by decide
theorem witness_WaitPersistsWithoutKey :
    onWait.fault = none ∧ onWait.fetchWord = .ok 0xF30A ∧ decode 0xF30A = .ldVxK 3 ∧
    onWait.latch ≠ .waitingKeyReceived := ⟨by decide, rfl, by decide, by decide⟩
theorem witness_KeyDownEndsWait : 15 < 16 ∧ onWait.fetchWord = .ok 0xF30A := ⟨by decide, rfl⟩
theorem witness_LastKeyReadOnlyWhenReceived :
    State.reset.latch ≠ .waitingKeyReceived ∧ onWait.latch ≠ .waitingKeyReceived ∧
    ∃ t, exec (.ldVxK 3) State.reset = .next t := ⟨by decide, by decide, _, rfl⟩
theorem witness_KeyEvents : 15 < 16 ∧ ¬ 16 < 16 := by decide
theorem witness_JpV0_completes_with_fault :
    ∃ t, exec (.jpV0 0x300) State.reset = .next t ∧ t.fault ≠ none := ⟨_, rfl, by decide⟩

/-- A placed word is what the next step fetches and runs (the host's question, log 9). -/
theorem test_withFetchWord :
    (State.reset.withFetchWord 16 0x8014).fetchWord = .ok 0x8014 ∧
    step (State.reset.withFetchWord 16 0x8014) = exec (.addReg 0 1) (State.reset.withFetchWord 16 0x8014) := ⟨rfl, rfl⟩

end Sys2Proof.Tests
end

namespace Sys2Proof.Proofs

/-! ### The scan of the decode table (30_encoding.md R75) -/

@[simp] theorem matchesWord_iff (d : Descriptor) (w : Word) :
    d.matchesWord w = true ↔ w &&& d.mask = d.code := by
  simp [Descriptor.matchesWord]

theorem scan_cons_of_match {d : Descriptor} {w : Word} (ds : List Descriptor)
    (hd : w &&& d.mask = d.code) : scan (d :: ds) w = d :=
  if_pos ((matchesWord_iff d w).mpr hd)

theorem scan_cons_of_not_match {d : Descriptor} {w : Word} (ds : List Descriptor)
    (hd : w &&& d.mask ≠ d.code) : scan (d :: ds) w = scan ds w :=
  if_neg (mt (matchesWord_iff d w).mp hd)

/-- Descriptors that do not match are skipped, whatever stands behind them. -/
theorem scan_append_of_no_match {before : List Descriptor} {w : Word} (rest : List Descriptor)
    (h : ∀ e ∈ before, w &&& e.mask ≠ e.code) : scan (before ++ rest) w = scan rest w := by
  induction before with
  | nil => rfl
  | cons e es ih =>
    obtain ⟨he, hes⟩ := List.forall_mem_cons.mp h
    rw [List.cons_append, scan_cons_of_not_match _ he, ih hes]

theorem scan_eq_of_first_match {before : List Descriptor} {d : Descriptor} {w : Word}
    (after : List Descriptor) (h : ∀ e ∈ before, w &&& e.mask ≠ e.code)
    (hd : w &&& d.mask = d.code) : scan (before ++ d :: after) w = d := by
  rw [scan_append_of_no_match _ h, scan_cons_of_match _ hd]

theorem scan_eq_invalidDescriptor {ds : List Descriptor} {w : Word}
    (h : ∀ d ∈ ds, w &&& d.mask ≠ d.code) : scan ds w = invalidDescriptor := by
  simpa [scan] using scan_append_of_no_match [] h

theorem decode_eq_of_scan {w : Word} {d : Descriptor} (h : scan decodeTable w = d) :
    decode w = d.opcode.instr (extract d.format.encoding w) w := by
  rw [decode, h]

/-- Settles O4: the scan skips the descriptors that do not match and stops at the first that does;
the sentinel it falls back to is the descriptor of Invalid, which keeps the word. -/
theorem decodeFirstMatch : Obligations.DecodeFirstMatch := by
  intro w
  constructor
  · intro before d after htable hbefore hd
    exact decode_eq_of_scan (htable ▸ scan_eq_of_first_match after hbefore hd)
  · intro hnone
    exact decode_eq_of_scan (scan_eq_invalidDescriptor hnone)

end Sys2Proof.Proofs

namespace Sys2Proof.Proofs

open Sys2Proof.Machine

/-! ### Instructions that complete: the handler's own next state (30_encoding.md R82) -/

theorem completes_of_handler {i : Instr} {s t : State} {P : State → Prop}
    (ht : handlerOf i s.advance = .ok t) (hP : P t) : Completes i s P :=
  ⟨t, by rw [exec_eq_runHandler, runHandler_ok _ _ _ _ ht], hP⟩

/-! ### CLS and JP (40_control.md R101, R103) -/

/-- R74: an address becomes a `pc` or `I` value without a change of its number. -/
theorem zext16_toNat (nnn : BitVec 12) : (zext16 nnn).toNat = nnn.toNat :=
  BitVec.toNat_setWidth_of_le (by decide)

/-- Settles O25: CLS puts the cleared display, which has no set pixel, into the advanced state. -/
theorem clsClearsEveryPixel : Obligations.ClsClearsEveryPixel := fun _ =>
  completes_of_handler rfl ⟨Display.pixel_clear, rfl, rfl⟩

/-- Settles O27: JP replaces the advanced `pc` by its target, whose number zero extension keeps. -/
theorem jpSetsPc : Obligations.JpSetsPc := fun nnn s =>
  completes_of_handler rfl ⟨zext16_toNat nnn, State.reg_jump s.advance _ 15⟩

/-! ### The skips (40_control.md R105 to R108) -/

/-- A skip's 2 come on top of the default advance, both modulo 2^16. -/
theorem skipIf_advance_pc_toNat (s : State) (test : Bool) :
    (s.advance.skipIf test).pc.toNat = (s.pc.toNat + if test then 4 else 2) % 65536 := by
  rw [State.skipIf_pc, State.advance_pc]
  cases test with
  | false => exact BitVec.toNat_add s.pc 2
  | true => simp [BitVec.add_assoc, BitVec.toNat_add]

theorem reg_skipIf_advance (s : State) (test : Bool) (r : Reg) :
    (s.advance.skipIf test).reg r = s.reg r := by
  rw [State.reg_skipIf, State.reg_advance]

theorem completes_of_skipIf_eq {i : Instr} {s : State} {a b : Byte}
    (h : handlerOf i s.advance = .ok (s.advance.skipIf (a == b))) :
    Completes i s fun t =>
      t.pc.toNat = (s.pc.toNat + if a = b then 4 else 2) % 65536 ∧ t.reg 15 = s.reg 15 := by
  refine completes_of_handler h ⟨?_, reg_skipIf_advance s _ 15⟩
  simpa using skipIf_advance_pc_toNat s (a == b)

theorem completes_of_skipIf_ne {i : Instr} {s : State} {a b : Byte}
    (h : handlerOf i s.advance = .ok (s.advance.skipIf (a != b))) :
    Completes i s fun t =>
      t.pc.toNat = (s.pc.toNat + if a = b then 2 else 4) % 65536 ∧ t.reg 15 = s.reg 15 := by
  refine completes_of_handler h ⟨?_, reg_skipIf_advance s _ 15⟩
  simpa using skipIf_advance_pc_toNat s (a != b)

/-- Settles O30: SE Vx, kk skips on the test `Vx = kk`, SNE Vx, kk on `Vx ≠ kk`. -/
theorem immediateSkips : Obligations.ImmediateSkips := fun _ _ _ =>
  ⟨completes_of_skipIf_eq rfl, completes_of_skipIf_ne rfl⟩

/-- Settles O31: SE Vx, Vy skips on the test `Vx = Vy`, SNE Vx, Vy on `Vx ≠ Vy`; x = y is no case
of its own. -/
theorem registerSkips : Obligations.RegisterSkips := fun _ _ _ =>
  ⟨completes_of_skipIf_eq rfl, completes_of_skipIf_ne rfl⟩

end Sys2Proof.Proofs

namespace Sys2Proof.Proofs

open Sys2Proof.Machine

/-! ### One register written, no flag (41_alu.md R131 to R136) -/

/-- The register write ends with a byte that has `P`; VF keeps its value unless it is the
destination, and `pc` has the default advance. -/
theorem completes_of_setReg {i : Instr} {s : State} {x : Reg} {b : Byte} {P : Byte → Prop}
    (h : handlerOf i s.advance = .ok (s.advance.setReg x b)) (hb : P b) :
    Completes i s fun t => P (t.reg x) ∧ (x ≠ 15 → t.reg 15 = s.reg 15) ∧ t.pc = s.pc + 2 :=
  completes_of_handler h
    ⟨(State.reg_setReg_same ..).symm ▸ hb, fun hx => State.reg_setReg_ne _ b hx.symm, rfl⟩

/-- Settles O32: both loads are one register write of the operand, `kk` or the old `Vy`. -/
theorem registerLoads : Obligations.RegisterLoads := fun _ y kk s =>
  ⟨completes_of_setReg (P := (· = kk)) rfl rfl, completes_of_setReg (P := (· = s.reg y)) rfl rfl⟩

/-- Settles O33: the byte written is the sum of two bytes, which wraps. -/
theorem addImmediateWraps : Obligations.AddImmediateWraps := fun x kk s =>
  completes_of_setReg (P := fun r => r.toNat = ((s.reg x).toNat + kk.toNat) % 256) rfl
    (BitVec.toNat_add _ _)

/-- Settles O34: each of the three is one register write of the bitwise operation's byte. -/
theorem bitwiseOperations : Obligations.BitwiseOperations := by
  intro x y s
  refine ⟨?or, ?and, ?xor⟩
  case or =>
    exact completes_of_setReg
      (P := fun r => ∀ n, r.getLsbD n = ((s.reg x).getLsbD n || (s.reg y).getLsbD n))
      rfl fun _ => BitVec.getLsbD_or
  case and =>
    exact completes_of_setReg
      (P := fun r => ∀ n, r.getLsbD n = ((s.reg x).getLsbD n && (s.reg y).getLsbD n))
      rfl fun _ => BitVec.getLsbD_and
  case xor =>
    exact completes_of_setReg
      (P := fun r => ∀ n, r.getLsbD n = ((s.reg x).getLsbD n ^^ (s.reg y).getLsbD n))
      rfl fun _ => BitVec.getLsbD_xor

/-! ### One register written, then the flag (41_alu.md R137, R138, R140, R141) -/

theorem flagByte_toNat (f : Bool) : (flagByte f).toNat = f.toNat := by
  cases f <;> rfl

/-- R130: VF ends as the flag, also when x = 15, and any other destination keeps its result. -/
theorem completes_of_setRegFlag {i : Instr} {s : State} {x : Reg} {b : Byte} {f : Bool} {m n : Nat}
    (h : handlerOf i s.advance = .ok (s.advance.setRegFlag x b f))
    (hf : f.toNat = n) (hb : b.toNat = m) :
    Completes i s fun t =>
      (t.reg 15).toNat = n ∧ (x ≠ 15 → (t.reg x).toNat = m) ∧ t.pc = s.pc + 2 := by
  refine completes_of_handler h ⟨?flag, fun hx => ?result, rfl⟩
  case flag => rw [State.reg_setRegFlag, if_pos rfl, flagByte_toNat, hf]
  case result => rw [State.reg_setRegFlag, if_neg hx, if_pos rfl, hb]

theorem addCarry_toNat (a b : Byte) :
    (addCarry a b).toNat = if a.toNat + b.toNat > 255 then 1 else 0 :=
  Bool.cond_decide _ _ _

theorem subNoBorrow_toNat (a b : Byte) :
    (subNoBorrow a b).toNat = if b.toNat ≤ a.toNat then 1 else 0 :=
  Bool.cond_decide _ _ _

/-- The difference of two bytes as a number; 256 is added before the subtraction, so that no natural
subtraction is cut off at 0. -/
theorem sub_toNat (a b : Byte) : (a - b).toNat = (a.toNat + 256 - b.toNat) % 256 := by
  have hb : b.toNat < 256 := b.isLt
  rw [BitVec.toNat_sub]
  omega

theorem shrOut_toNat (a : Byte) : (shrOut a).toNat = a.toNat % 2 := by
  calc (shrOut a).toNat = a.toNat / 2 ^ 0 % 2 := Nat.toNat_testBit a.toNat 0
    _ = a.toNat % 2 := by rw [pow_zero, Nat.div_one]

/-- Bit 7 is the highest bit of a byte, so the quotient by 128 is that bit alone. -/
theorem shlOut_toNat (a : Byte) : (shlOut a).toNat = a.toNat / 128 := by
  have ha : a.toNat / 128 < 2 := by have := a.isLt; omega
  calc (shlOut a).toNat = a.toNat / 2 ^ 7 % 2 := Nat.toNat_testBit a.toNat 7
    _ = a.toNat / 128 := Nat.mod_eq_of_lt ha

theorem shiftRight_one_toNat (a : Byte) : (a >>> 1).toNat = a.toNat / 2 := by
  rw [BitVec.toNat_ushiftRight, Nat.shiftRight_eq_div_pow]

theorem shiftLeft_one_toNat (a : Byte) : (a <<< 1).toNat = a.toNat * 2 % 256 := by
  rw [BitVec.toNat_shiftLeft, Nat.shiftLeft_eq]

/-- Settles O35: the wrapped sum, then the carry. -/
theorem addWithCarry : Obligations.AddWithCarry := fun _ _ _ =>
  completes_of_setRegFlag rfl (addCarry_toNat _ _) (BitVec.toNat_add _ _)

/-- Settles O36: the wrapped difference, then the no-borrow flag. -/
theorem subNoBorrow : Obligations.SubNoBorrow := fun _ _ _ =>
  completes_of_setRegFlag rfl (subNoBorrow_toNat _ _) (sub_toNat _ _)

/-- Settles O38: half of Vx and its bit 0, twice Vx and its bit 7; no handler reads Vy. -/
theorem shiftsByOne : Obligations.ShiftsByOne := fun _ _ _ =>
  ⟨completes_of_setRegFlag rfl (shrOut_toNat _) (shiftRight_one_toNat _),
    completes_of_setRegFlag rfl (shlOut_toNat _) (shiftLeft_one_toNat _)⟩

end Sys2Proof.Proofs

namespace Sys2Proof.Proofs

open Sys2Proof.Machine

/-! ### The index register (42_index_memory.md R160, R162) -/

/-- R162: the product is at most 1275, so 16 bits hold it without a wrap. -/
theorem glyphAddr_toNat (b : Byte) : (glyphAddr b).toNat = b.toNat * 5 := by
  have hb : b.toNat < 256 := b.isLt
  calc (glyphAddr b).toNat
      = (b.setWidth 16).toNat * 5 % 65536 := BitVec.toNat_mul _ _
    _ = b.toNat * 5 % 65536 := by rw [BitVec.toNat_setWidth_of_le (by decide)]
    _ = b.toNat * 5 := Nat.mod_eq_of_lt (by omega)

/-- The write of `I` after the default advance ends with the number `n` in it and keeps VF. -/
theorem completes_of_setIdx {i : Instr} {s : State} {a : Word} {n : Nat}
    (h : handlerOf i s.advance = .ok { s.advance with idx := a }) (ha : a.toNat = n) :
    Completes i s fun t => t.idx.toNat = n ∧ t.reg 15 = s.reg 15 ∧ t.pc = s.pc + 2 :=
  completes_of_handler h ⟨ha, State.reg_congr s { s.advance with idx := a } rfl 15, rfl⟩

/-- Settles O40: both are one write of `I`, by the zero-extended address or by the glyph's. -/
theorem indexLoads : Obligations.IndexLoads := fun nnn x s =>
  ⟨completes_of_setIdx rfl (zext16_toNat nnn), completes_of_setIdx rfl (glyphAddr_toNat (s.reg x))⟩

end Sys2Proof.Proofs

namespace Sys2Proof.Proofs

open Sys2Proof.Machine

/-! ### The timer instructions (43_io_timers.md R183, R185, R186) -/

/-- R29: the sound output compares `ST` as a number; it is on exactly when that byte is not 0. -/
theorem soundState_iff (t : State) : soundState t = true ↔ t.st ≠ 0 := by
  rw [soundState, decide_eq_true_iff, gt_iff_lt, Nat.pos_iff_ne_zero]
  exact BitVec.toNat_ne_iff_ne (y := 0)

/-- Settles O50: the read is one register write of `DT`, which leaves the timer itself alone; each
write sets one timer in the advanced state and no register. -/
theorem timerInstructions : Obligations.TimerInstructions := by
  intro x s
  refine ⟨?readDelay, ?writeDelay, ?writeSound⟩
  case readDelay =>
    exact completes_of_handler rfl
      ⟨State.reg_setReg_same .., rfl, fun hx => State.reg_setReg_ne _ s.dt hx.symm, rfl⟩
  case writeDelay =>
    exact completes_of_handler rfl ⟨rfl, State.reg_congr s _ rfl 15, rfl⟩
  case writeSound =>
    exact completes_of_handler rfl ⟨rfl, soundState_iff _, State.reg_congr s _ rfl 15, rfl⟩

end Sys2Proof.Proofs

namespace Sys2Proof.Proofs

open Sys2Proof.Laws

/-! ### No word matches two rows (30_encoding.md R77) -/

/-- Any two rows ask for different bits where both masks look. -/
theorem decodeTable_codes_conflict :
    decodeTable.Pairwise fun d e => d.code &&& e.mask ≠ e.code &&& d.mask := by decide

/-- Settles O3: a word that matched two rows would show one row's code and the other's where both
masks look, and there the codes differ. -/
theorem decodeRowsDisjoint : Obligations.DecodeRowsDisjoint := by
  refine ⟨rfl, decodeTable_codes_conflict.imp ?_⟩
  intro d e hconflict w ⟨hd, he⟩
  apply hconflict
  calc d.code &&& e.mask = w &&& (d.mask &&& e.mask) := by rw [← hd, BitVec.and_assoc]
    _ = w &&& (e.mask &&& d.mask) := by rw [BitVec.and_comm d.mask]
    _ = e.code &&& d.mask := by rw [← he, BitVec.and_assoc]

/-- The order of the rows does not matter: whatever row a word matches decides the instruction. -/
theorem decode_of_row {d : Descriptor} {w : Word} (hd : d ∈ decodeTable)
    (hw : w &&& d.mask = d.code) :
    decode w = d.opcode.instr (extract d.format.encoding w) w := by
  obtain ⟨before, after, htable⟩ := List.append_of_mem hd
  refine (decodeFirstMatch w).1 before d after htable (fun e he hew => ?_) hw
  have hpairs := htable ▸ decodeRowsDisjoint.2
  exact (List.pairwise_append.mp hpairs).2.2 e he d List.mem_cons_self w ⟨hew, hw⟩

/-- Everything decoding can do: the instruction of a row that the word matches, or Invalid. -/
theorem decode_cases (w : Word) :
    (∃ d ∈ decodeTable, w &&& d.mask = d.code ∧
      decode w = d.opcode.instr (extract d.format.encoding w) w) ∨
      (∀ d ∈ decodeTable, w &&& d.mask ≠ d.code) ∧ decode w = .invalid w := by
  by_cases h : ∃ d ∈ decodeTable, w &&& d.mask = d.code
  · obtain ⟨d, hd, hw⟩ := h
    exact .inl ⟨d, hd, hw, decode_of_row hd hw⟩
  · push Not at h
    exact .inr ⟨h, (decodeFirstMatch w).2 h⟩

/-! ### The operand fields as numbers (R71, R72) -/

theorem regField_zero (w : Word) : regField w 0 0 = 0 := by
  simp [regField]

theorem maskedField_toNat {w m : Word} {k : Nat} (hm : m >>> k = 15#16) :
    ((w &&& m) >>> k).toNat = w.toNat / 2 ^ k % 16 := by
  rw [BitVec.ushiftRight_and_distrib, hm, BitVec.toNat_and, BitVec.toNat_ushiftRight,
    Nat.shiftRight_eq_div_pow]
  exact Nat.and_two_pow_sub_one_eq_mod _ 4

/-- A mask of four bits leaves a number below 16, which is the register index itself. -/
theorem regField_val {w m : Word} {k : Nat} (hm : m >>> k = 15#16) :
    (regField w m k).val = ((w &&& m) >>> k).toNat := by
  rw [regField, Fin.val_ofNat, maskedField_toNat hm, Nat.mod_mod]

/-- The low `k` bits of a word, in a width that holds them. -/
theorem lowBits_toNat {v k : Nat} {m : Word} (w : Word) (hm : m.toNat = 2 ^ k - 1) (hk : k ≤ v) :
    ((w &&& m).setWidth v).toNat = w.toNat % 2 ^ k := by
  have hlt : w.toNat % 2 ^ k < 2 ^ v :=
    (Nat.mod_lt _ (Nat.two_pow_pos k)).trans_le (Nat.pow_le_pow_right (by decide) hk)
  rw [BitVec.toNat_setWidth, BitVec.toNat_and, hm, Nat.and_two_pow_sub_one_eq_mod,
    Nat.mod_eq_of_lt hlt]

/-- Settles O7: each format's masks and shifts pick the fields it has; a zero mask leaves zero. -/
theorem extractedFields : Obligations.ExtractedFields := by
  intro f w
  have hx : (regField w 0x0F00 8).val = w.toNat / 256 % 16 :=
    (regField_val rfl).trans (maskedField_toNat rfl)
  have hy : (regField w 0x00F0 4).val = w.toNat / 16 % 16 :=
    (regField_val rfl).trans (maskedField_toNat rfl)
  have hnnn : ((w &&& 0x0FFF).setWidth 12).toNat = w.toNat % 4096 :=
    lowBits_toNat w (k := 12) rfl (by decide)
  have hkk : ((w &&& 0x00FF).setWidth 8).toNat = w.toNat % 256 :=
    lowBits_toNat w (k := 8) rfl (by decide)
  have hn : ((w &&& 0x000F).setWidth 8).toNat = w.toNat % 16 :=
    lowBits_toNat w (k := 4) rfl (by decide)
  cases f <;> simp only [extract, Format.encoding, hx, hy, hnnn, hkk, hn, regField_zero] <;> simp

/-! ### A word as the code and the operands of a row (R73, R76) -/

/-- The row of the decode table that an opcode kind names. -/
def rowOf (k : Opcode) : Descriptor :=
  (decodeTable.find? fun d => d.opcode == k).getD invalidDescriptor

theorem rowOf_opcode : ∀ d ∈ decodeTable, rowOf d.opcode = d := by decide

/-- The bits that a format takes operands from. -/
def operandMask (f : Format) : Word :=
  f.encoding.xmask ||| f.encoding.ymask ||| f.encoding.amask ||| f.encoding.imask

/-- A row's mask looks at exactly the bits that hold no operand. -/
theorem mask_eq_not_operandMask : ∀ d ∈ decodeTable, d.mask = ~~~operandMask d.format := by decide

theorem code_and_operandMask : ∀ d ∈ decodeTable, d.code &&& operandMask d.format = 0 := by decide

/-- The word of a code and operands in a format. -/
def assemble (f : Format) (code : Word) (o : DecodedOperands) : Word :=
  match f with
  | .none => code
  | .nnn => encodeNNN code o.address
  | .xkk => encodeXKK code o.regX o.immediate
  | .xy => encodeXY code o.regX o.regY
  | .xyn => encodeXYN code o.regX o.regY (o.immediate.setWidth 4)
  | .x => encodeX code o.regX

theorem encode_instr {k : Opcode} (hk : k ≠ .invalid) (o : DecodedOperands) (w : Word) :
    encode (k.instr o w) = assemble (rowOf k).format (rowOf k).code o := by
  cases k with
  | invalid => exact absurd rfl hk
  | _ => rfl

/-! ### Assembling what was extracted -/

theorem regField_x_shiftLeft (w : Word) :
    BitVec.ofNat 16 (regField w 0x0F00 8).val <<< 8 = w &&& 0x0F00 := by
  rw [regField_val rfl, BitVec.ofNat_toNat, BitVec.setWidth_eq]
  ext i hi
  interval_cases i <;> simp

theorem regField_y_shiftLeft (w : Word) :
    BitVec.ofNat 16 (regField w 0x00F0 4).val <<< 4 = w &&& 0x00F0 := by
  rw [regField_val rfl, BitVec.ofNat_toNat, BitVec.setWidth_eq]
  ext i hi
  interval_cases i <;> simp

theorem setWidth_setWidth_and {w m : Word} {v : Nat} (hm : m.toNat < 2 ^ v) (hv : v ≤ 16) :
    ((w &&& m).setWidth v).setWidth 16 = w &&& m := by
  apply BitVec.eq_of_toNat_eq
  have : (w &&& m).toNat ≤ m.toNat := by rw [BitVec.toNat_and]; exact Nat.and_le_right
  rw [BitVec.toNat_setWidth_of_le hv, BitVec.toNat_setWidth, Nat.mod_eq_of_lt (by omega)]

/-- The operands of a word put its own operand bits back. -/
theorem assemble_extract (f : Format) (c w : Word) :
    assemble f c (extract f.encoding w) = c ||| (w &&& operandMask f) := by
  have hx := regField_x_shiftLeft w
  have hy := regField_y_shiftLeft w
  have hnnn : ((w &&& 0x0FFF).setWidth 12).setWidth 16 = w &&& 0x0FFF :=
    setWidth_setWidth_and (by decide) (by decide)
  have hkk : ((w &&& 0x00FF).setWidth 8).setWidth 16 = w &&& 0x00FF :=
    setWidth_setWidth_and (by decide) (by decide)
  have hn : (((w &&& 0x000F).setWidth 8).setWidth 4).setWidth 16 = w &&& 0x000F := by
    rw [BitVec.setWidth_setWidth_of_le (w &&& 0x000F) (by decide : 4 ≤ 8)]
    exact setWidth_setWidth_and (by decide) (by decide)
  have hjoin (m n : Word) : (w &&& m) ||| (w &&& n) = w &&& (m ||| n) :=
    BitVec.and_or_distrib_left.symm
  cases f <;>
    simp only [assemble, extract, Format.encoding, operandMask, encodeNNN, encodeX, encodeXKK,
      encodeXY, encodeXYN, hx, hy, hnnn, hkk, hn, BitVec.or_assoc, hjoin] <;> simp

/-- Code bits and operand bits make up the word. -/
theorem assemble_extract_of_row {d : Descriptor} {w : Word} (hd : d ∈ decodeTable)
    (hw : w &&& d.mask = d.code) :
    assemble d.format d.code (extract d.format.encoding w) = w := by
  rw [assemble_extract, ← hw, mask_eq_not_operandMask d hd, ← BitVec.and_or_distrib_left,
    BitVec.not_or_self, BitVec.and_allOnes]

/-! ### The words of Invalid (R78) -/

@[simp] theorem opcode_instr (k : Opcode) (o : DecodedOperands) (w : Word) :
    (k.instr o w).opcode = k := by
  cases k <;> rfl

theorem decode_opcode_eq_invalid_iff (w : Word) :
    (decode w).opcode = .invalid ↔
      ∀ d ∈ decodeTable, d.opcode ≠ .invalid → w &&& d.mask ≠ d.code := by
  constructor
  · intro hop d hd hne hw
    rw [decode_of_row hd hw, opcode_instr] at hop
    exact hne hop
  · intro hnone
    rcases decode_cases w with ⟨d, hd, hw, hdec⟩ | ⟨-, hdec⟩
    · rw [hdec, opcode_instr]
      exact of_not_not fun hne => hnone d hd hne hw
    · rw [hdec]; rfl

theorem extractLsb_eq_iff (w c : Word) {hi lo : Nat} (hle : lo ≤ hi) :
    w.extractLsb hi lo = c.extractLsb hi lo ↔
      ∀ i, lo ≤ i → i ≤ hi → w.getLsbD i = c.getLsbD i := by
  constructor
  · intro h i hlo hhi
    have hbit := congrArg (fun b => b.getLsbD (i - lo)) h
    simpa [Nat.add_sub_cancel' hlo, show i - lo ≤ hi - lo by omega] using hbit
  · intro h
    apply BitVec.eq_of_getLsbD_eq
    intro i hlt
    rw [BitVec.getLsbD_extractLsb, BitVec.getLsbD_extractLsb, h (lo + i) (by omega) (by omega)]

theorem and_eq_iff {w c m : Word} (hc : c &&& m = c) :
    w &&& m = c ↔ ∀ i < 16, m.getLsbD i = true → w.getLsbD i = c.getLsbD i := by
  constructor
  · rintro rfl i - hm
    rw [BitVec.getLsbD_and, hm, Bool.and_true]
  · intro h
    rw [← hc]
    apply BitVec.eq_of_getLsbD_eq
    intro i hi
    rw [BitVec.getLsbD_and, BitVec.getLsbD_and]
    cases hm : m.getLsbD i with
    | true => rw [h i hi hm]
    | false => rw [Bool.and_false, Bool.and_false]

theorem and_F000_eq_iff {w c : Word} (hc : c &&& 0xF000#16 = c) :
    w &&& 0xF000#16 = c ↔ w.extractLsb 15 12 = c.extractLsb 15 12 := by
  rw [and_eq_iff hc, extractLsb_eq_iff w c (by decide)]
  have hm : ∀ i < 16, (0xF000#16).getLsbD i = true ↔ 12 ≤ i ∧ i ≤ 15 := by decide
  grind

/-- A mask of the class nibble and the low bits shows both fields. -/
theorem and_eq_iff_fields {w c m : Word} {hi : Nat} (hc : c &&& m = c)
    (hm : ∀ i < 16, m.getLsbD i = true ↔ (12 ≤ i ∧ i ≤ 15) ∨ i ≤ hi) (hhi : hi < 16) :
    w &&& m = c ↔
      w.extractLsb 15 12 = c.extractLsb 15 12 ∧ w.extractLsb hi 0 = c.extractLsb hi 0 := by
  rw [and_eq_iff hc, extractLsb_eq_iff w c (by decide), extractLsb_eq_iff w c (Nat.zero_le hi)]
  grind

theorem and_F00F_eq_iff {w c : Word} (hc : c &&& 0xF00F#16 = c) :
    w &&& 0xF00F#16 = c ↔
      w.extractLsb 15 12 = c.extractLsb 15 12 ∧ w.extractLsb 3 0 = c.extractLsb 3 0 :=
  and_eq_iff_fields hc (by decide) (by decide)

theorem and_F0FF_eq_iff {w c : Word} (hc : c &&& 0xF0FF#16 = c) :
    w &&& 0xF0FF#16 = c ↔
      w.extractLsb 15 12 = c.extractLsb 15 12 ∧ w.extractLsb 7 0 = c.extractLsb 7 0 :=
  and_eq_iff_fields hc (by decide) (by decide)

/-- The words that no row but the sentinel's matches are R78's: its table splits by the class
nibble, and in each class only that class's rows can match. -/
theorem noRow_iff_invalidWord (w : Word) :
    (∀ d ∈ decodeTable, d.opcode ≠ .invalid → w &&& d.mask ≠ d.code) ↔ invalidWord w = true := by
  have hclasses : ∀ c : BitVec 4, c = 0 ∨ c ∈ [1, 2, 3, 4, 6, 7, 10, 11, 12, 13] ∨
      c = 8 ∨ c = 5 ∨ c = 9 ∨ c = 14 ∨ c = 15 := by decide
  have hlow : ∀ n : BitVec 4,
      (n ≠ 0 ∧ n ≠ 1 ∧ n ≠ 2 ∧ n ≠ 3 ∧ n ≠ 4 ∧ n ≠ 5 ∧ n ≠ 7 ∧ n ≠ 6 ∧ n ≠ 14) ↔
        (n = 8 ∨ n = 9 ∨ n = 10 ∨ n = 11 ∨ n = 12 ∨ n = 13 ∨ n = 15) := by decide
  have hcls : w.extractLsb 15 12 ≠ 0 → w ≠ 0x00E0#16 := by rintro h rfl; exact h rfl
  have hret : w.extractLsb 15 12 ≠ 0 → w ≠ 0x00EE#16 := by rintro h rfl; exact h rfl
  have hwhole : w &&& 0xFFFF#16 = w := BitVec.and_allOnes
  simp (disch := decide) only [decodeTable, BitVec.ofNat_eq_ofNat, List.cons_append,
    List.nil_append, List.mem_cons, List.not_mem_nil, or_false, ne_eq, forall_eq_or_imp,
    not_true_eq_false, hwhole, IsEmpty.forall_iff, reduceCtorEq, not_false_eq_true, forall_const,
    and_F000_eq_iff, Nat.reduceSub, Nat.reduceAdd, BitVec.extractLsb_ofNat, Nat.reducePow,
    Nat.reduceMod, Nat.reduceShiftRight, and_F00F_eq_iff, Nat.sub_zero, Nat.shiftRight_zero,
    BitVec.reduceOfNat, not_and, and_F0FF_eq_iff, forall_eq, true_and]
  rcases hclasses (w.extractLsb 15 12) with h | h | h | h
  · simp [h, invalidWord]
  · simp only [List.mem_cons, List.not_mem_nil, or_false] at h
    rcases h with h | h | h | h | h | h | h | h | h | h <;> simp [h, invalidWord]
  · have hne : w.extractLsb 15 12 ≠ 0 := by rw [h]; decide
    have hn := hlow (w.extractLsb 3 0)
    simpa [h, invalidWord, hcls hne, hret hne] using hn
  · have hne : w.extractLsb 15 12 ≠ 0 := by rcases h with h | h | h | h <;> rw [h] <;> decide
    rcases h with h | h | h | h <;> simp [h, invalidWord, hcls hne, hret hne]

/-- Settles O5: a word decodes to Invalid when no other row matches it, and those are R78's words. -/
theorem invalidWordsExact : Obligations.InvalidWordsExact := fun w =>
  (decode_opcode_eq_invalid_iff w).trans (noRow_iff_invalidWord w)

theorem decode_eq_invalid {w : Word} (h : (decode w).opcode = .invalid) :
    decode w = .invalid w := by
  rcases decode_cases w with ⟨d, -, -, hdec⟩ | ⟨-, hdec⟩
  · rw [hdec, opcode_instr] at h
    rw [hdec, h, Opcode.instr]
  · exact hdec

theorem wellFormed_of_opcode_ne_invalid {i : Instr} (h : i.opcode ≠ .invalid) :
    i.wellFormed = true := by
  cases i with
  | invalid => exact absurd rfl h
  | _ => rfl

/-- Settles O2: an Invalid keeps its word, and any other instruction's word is put together from its
row's code and the operands, which are all the bits of the word it was decoded from. -/
theorem encodeOfDecode : Obligations.EncodeOfDecode := by
  intro w
  by_cases hop : (decode w).opcode = .invalid
  · rw [decode_eq_invalid hop]
    exact ⟨rfl, (invalidWordsExact w).mp hop⟩
  · refine ⟨?_, wellFormed_of_opcode_ne_invalid hop⟩
    rcases decode_cases w with ⟨d, hd, hw, hdec⟩ | ⟨-, hdec⟩
    · rw [hdec, opcode_instr] at hop
      rw [hdec, encode_instr hop, rowOf_opcode d hd, assemble_extract_of_row hd hw]
    · rw [hdec]; rfl

/-! ### Extracting what was assembled -/

/-- The operands of an instruction. -/
def operandsOf : Instr → DecodedOperands
  | .invalid _ | .cls | .ret => ⟨0, 0, 0, 0⟩
  | .jp nnn | .call nnn | .ldI nnn | .jpV0 nnn => ⟨0, 0, nnn, 0⟩
  | .seImm x kk | .sneImm x kk | .ldImm x kk | .addImm x kk | .rnd x kk => ⟨x, 0, 0, kk⟩
  | .seReg x y | .sneReg x y | .ldReg x y | .orReg x y | .andReg x y | .xorReg x y | .addReg x y
  | .sub x y | .subn x y | .shr x y | .shl x y => ⟨x, y, 0, 0⟩
  | .drw x y n => ⟨x, y, 0, n.setWidth 8⟩
  | .skp x | .sknp x | .ldVxDt x | .ldVxK x | .ldDtVx x | .ldStVx x | .addI x | .ldF x | .ldB x
  | .stRegs x | .ldRegs x => ⟨x, 0, 0, 0⟩

/-- The operands that a format has; the others are zero. -/
def restrict (f : Format) (o : DecodedOperands) : DecodedOperands :=
  match f with
  | .none => ⟨0, 0, 0, 0⟩
  | .nnn => ⟨0, 0, o.address, 0⟩
  | .xkk => ⟨o.regX, 0, 0, o.immediate⟩
  | .xy => ⟨o.regX, o.regY, 0, 0⟩
  | .xyn => ⟨o.regX, o.regY, 0, (o.immediate.setWidth 4).setWidth 8⟩
  | .x => ⟨o.regX, 0, 0, 0⟩

theorem xField_back : ∀ x : Reg, Fin.ofNat 16 (BitVec.ofNat 16 x.val <<< 8 >>> 8).toNat = x := by
  decide

theorem yField_back : ∀ y : Reg, Fin.ofNat 16 (BitVec.ofNat 16 y.val <<< 4 >>> 4).toNat = y := by
  decide

/-- Each operand comes back from its own bits, where no other operand and no code bit lies. -/
theorem extract_assemble (f : Format) (c : Word) (o : DecodedOperands)
    (hc : c &&& operandMask f = 0) :
    extract f.encoding (assemble f c o) = restrict f o := by
  have hcode {m : Word} (hm : operandMask f &&& m = m) : c &&& m = 0#16 := by
    rw [← hm, ← BitVec.and_assoc, hc]; exact BitVec.zero_and
  have hx {m : Word} (h : 0x0F00#16 &&& m = 0) : BitVec.ofNat 16 o.regX.val <<< 8 &&& m = 0#16 :=
    field_outside _ _ m (xField_mask o.regX) h
  have hy {m : Word} (h : 0x00F0#16 &&& m = 0) : BitVec.ofNat 16 o.regY.val <<< 4 &&& m = 0#16 :=
    field_outside _ _ m (yField_mask o.regY) h
  have hkk {m : Word} (h : 0x00FF#16 &&& m = 0) : o.immediate.setWidth 16 &&& m = 0#16 :=
    field_outside _ _ m (kkField_mask o.immediate) h
  have hn {m : Word} (h : 0x000F#16 &&& m = 0) :
      (o.immediate.setWidth 4).setWidth 16 &&& m = 0#16 :=
    field_outside _ _ m (nField_mask (o.immediate.setWidth 4)) h
  -- The shifted register fields stay as they are, so that `xField_back` and `yField_back` apply.
  cases f <;> simp (disch := decide) [assemble, extract, Format.encoding, restrict, regField,
    encodeNNN, encodeX, encodeXKK, encodeXY, encodeXYN, BitVec.and_or_distrib_right, hcode, hx, hy,
    hkk, hn, nnnField_mask, xField_mask, yField_mask, kkField_mask, nField_mask, xField_back,
    yField_back, -BitVec.setWidth_setWidth, -BitVec.toNat_ushiftRight, -BitVec.toNat_shiftLeft,
    -BitVec.toNat_ofNat, -Fin.ofNat_eq_cast]

theorem nibble_setWidth_back (n : BitVec 4) : (n.setWidth 8).setWidth 4 = n := by
  simp

/-- A kind takes only operands that its format has. -/
theorem instr_restrict_operandsOf {i : Instr} (hi : i.opcode ≠ .invalid) (w : Word) :
    i.opcode.instr (restrict (rowOf i.opcode).format (operandsOf i)) w = i := by
  cases i with
  | invalid => exact absurd rfl hi
  | drw x y n =>
    change Instr.drw x y ((((n.setWidth 8).setWidth 4).setWidth 8).setWidth 4) = .drw x y n
    rw [nibble_setWidth_back, nibble_setWidth_back]
  | _ => rfl

theorem encode_eq_assemble {i : Instr} (hi : i.opcode ≠ .invalid) :
    encode i = assemble (rowOf i.opcode).format (rowOf i.opcode).code (operandsOf i) := by
  cases i with
  | invalid => exact absurd rfl hi
  | drw x y n => exact congrArg (encodeXYN 0xD000 x y) (nibble_setWidth_back n).symm
  | _ => rfl

theorem ownRow : ∀ i : Instr, OwnRow.Statement i
  | .invalid w => OwnRow.invalid w
  | .cls => OwnRow.cls
  | .ret => OwnRow.ret
  | .jp nnn => OwnRow.jp nnn
  | .call nnn => OwnRow.call nnn
  | .seImm x kk => OwnRow.seImm x kk
  | .sneImm x kk => OwnRow.sneImm x kk
  | .seReg x y => OwnRow.seReg x y
  | .sneReg x y => OwnRow.sneReg x y
  | .ldImm x kk => OwnRow.ldImm x kk
  | .addImm x kk => OwnRow.addImm x kk
  | .ldReg x y => OwnRow.ldReg x y
  | .orReg x y => OwnRow.orReg x y
  | .andReg x y => OwnRow.andReg x y
  | .xorReg x y => OwnRow.xorReg x y
  | .addReg x y => OwnRow.addReg x y
  | .sub x y => OwnRow.sub x y
  | .subn x y => OwnRow.subn x y
  | .shr x y => OwnRow.shr x y
  | .shl x y => OwnRow.shl x y
  | .ldI nnn => OwnRow.ldI nnn
  | .jpV0 nnn => OwnRow.jpV0 nnn
  | .rnd x kk => OwnRow.rnd x kk
  | .drw x y n => OwnRow.drw x y n
  | .skp x => OwnRow.skp x
  | .sknp x => OwnRow.sknp x
  | .ldVxDt x => OwnRow.ldVxDt x
  | .ldVxK x => OwnRow.ldVxK x
  | .ldDtVx x => OwnRow.ldDtVx x
  | .ldStVx x => OwnRow.ldStVx x
  | .addI x => OwnRow.addI x
  | .ldF x => OwnRow.ldF x
  | .ldB x => OwnRow.ldB x
  | .stRegs x => OwnRow.stRegs x
  | .ldRegs x => OwnRow.ldRegs x

/-- Settles O1: the word of an instruction is its row's code with its operands; the decoder finds
that row, whatever its place, and takes the operands back. An Invalid's word matches no other row. -/
theorem decodeOfEncode : Obligations.DecodeOfEncode := by
  intro i hwf
  by_cases hi : i.opcode = .invalid
  · cases i with
    | invalid w => exact decode_eq_invalid ((invalidWordsExact w).mpr hwf)
    | _ => cases hi
  · obtain ⟨d, hd, hop, hmask⟩ := ownRow i hi
    have hrow : rowOf i.opcode = d := hop ▸ rowOf_opcode d hd
    rw [decode_of_row hd hmask, hop, encode_eq_assemble hi, hrow,
      extract_assemble _ _ _ (code_and_operandMask d hd), ← hrow, instr_restrict_operandsOf hi]

/-- Settles O6: the decoder run on each of the spec's fixed words. -/
theorem specWordsDecode : Obligations.SpecWordsDecode := by
  unfold Obligations.SpecWordsDecode
  decide

end Sys2Proof.Proofs

namespace Sys2Proof.Proofs

open Sys2Proof.Machine

/-! ### What each instruction does when it completes (30_encoding.md R82, R83) -/

/-- The `n` bytes from `I` upward (42_index_memory.md R166). -/
def blockAt (t : State) (n : Nat) : List Byte :=
  (List.range n).map fun k => Memory.read t.mem (t.indexAddr k)

/-- The registers `v` with V0 to Vx loaded from `m` at `a` upward (R165). Irreducible, so that a
comparison of two states does not run the load. -/
@[irreducible] def loadedRegs (v : Vector Byte 16) (m : Memory) (a : Nat) (x : Reg) :
    Vector Byte 16 :=
  Vector.ofFn fun r => if r ≤ x then Memory.read m (a + r.val) else v[r]

theorem getElem_loadedRegs (v : Vector Byte 16) (m : Memory) (a : Nat) (x r : Reg) :
    (loadedRegs v m a x)[r] = if r ≤ x then Memory.read m (a + r.val) else v[r] := by
  simp [loadedRegs]

/-- What DRW draws, and whether some set pixel was covered (43_io_timers.md R180). -/
def drawn (x y : Reg) (n : BitVec 4) (t : State) : Display × Bool :=
  Display.drawSprite t.disp (t.spriteX x) (t.spriteY y) (blockAt t n.toNat)

/-- The state that an instruction completes with, from the state `t` after the default advance,
where no fault is tabled: the handlers in closed form, each naming the components it writes. -/
def effectOf (i : Instr) (t : State) : State :=
  match i with
  | .invalid _ | .jpV0 _ => t
  | .cls => { t with disp := Display.clear }
  | .ret => { t with pc := t.stack.getLast?.getD 0, stack := t.stack.dropLast }
  | .jp nnn => { t with pc := zext16 nnn }
  | .call nnn => { t with pc := zext16 nnn, stack := t.stack ++ [t.pc] }
  | .seImm x kk => { t with pc := if t.reg x == kk then t.pc + 2 else t.pc }
  | .sneImm x kk => { t with pc := if t.reg x != kk then t.pc + 2 else t.pc }
  | .seReg x y => { t with pc := if t.reg x == t.reg y then t.pc + 2 else t.pc }
  | .sneReg x y => { t with pc := if t.reg x != t.reg y then t.pc + 2 else t.pc }
  | .ldImm x kk => t.setReg x kk
  | .addImm x kk => t.setReg x (t.reg x + kk)
  | .ldReg x y => t.setReg x (t.reg y)
  | .orReg x y => t.setReg x (t.reg x ||| t.reg y)
  | .andReg x y => t.setReg x (t.reg x &&& t.reg y)
  | .xorReg x y => t.setReg x (t.reg x ^^^ t.reg y)
  | .addReg x y => t.setRegFlag x (t.reg x + t.reg y) (addCarry (t.reg x) (t.reg y))
  | .sub x y => t.setRegFlag x (t.reg x - t.reg y) (Machine.subNoBorrow (t.reg x) (t.reg y))
  | .subn x y => t.setRegFlag x (t.reg y - t.reg x) (subnFlag Config.subnVf (t.reg x) (t.reg y))
  | .shr x _ => t.setRegFlag x (t.reg x >>> 1) (shrOut (t.reg x))
  | .shl x _ => t.setRegFlag x (t.reg x <<< 1) (shlOut (t.reg x))
  | .ldI nnn => { t with idx := zext16 nnn }
  | .rnd x kk => { t.setReg x (Config.randomByte t.draws &&& kk) with draws := t.draws + 1 }
  | .drw x y n =>
    { t with v := t.v.set VF (flagByte (drawn x y n t).2), disp := (drawn x y n t).1 }
  | .skp x =>
    { t with pc := if t.keyIsDown (Fin.ofNat 16 (t.reg x).toNat) then t.pc + 2 else t.pc }
  | .sknp x =>
    { t with pc := if !t.keyIsDown (Fin.ofNat 16 (t.reg x).toNat) then t.pc + 2 else t.pc }
  | .ldVxDt x => t.setReg x t.dt
  | .ldVxK x =>
    { t with
      v := if t.latch = .waitingKeyReceived then t.v.set x (BitVec.ofNat 8 t.lastKey.val) else t.v
      pc := if t.latch = .waitingKeyReceived then t.pc else t.pc - 2
      latch := if t.latch = .waitingKeyReceived then .notWaiting else .waitingNoKey }
  | .ldDtVx x => { t with dt := t.reg x }
  | .ldStVx x => { t with st := t.reg x }
  | .addI x => { t with idx := t.idx + (t.reg x).setWidth 16 }
  | .ldF x => { t with idx := glyphAddr (t.reg x) }
  | .ldB x => { t with mem := Memory.writeAll t.mem (t.indexAddr 0) (bcdDigits (t.reg x)) }
  | .stRegs x => { t with mem := Memory.writeAll t.mem (t.indexAddr 0) (t.regsTo x) }
  | .ldRegs x => { t with v := loadedRegs t.v t.mem (t.indexAddr 0) x }

theorem skipIf_eq (t : State) (b : Bool) :
    t.skipIf b = { t with pc := if b then t.pc + 2 else t.pc } := by
  cases b <;> rfl

theorem rangeFault_eq (a n : Nat) :
    rangeFault a n =
      if n = 0 ∨ a + n ≤ 0x1000 then none else some (.memoryOutOfBounds (firstOutOfBounds a)) := by
  unfold rangeFault firstOutOfBounds
  by_cases ha : a ≤ 0xFFF
  · rw [if_pos ha, max_eq_right (by omega)]
  · rw [if_neg ha, max_eq_left (by omega)]

theorem readBytes_block (t : State) (n : Nat) :
    t.readBytes (t.indexAddr 0) n =
      (rangeFault t.idx.toNat n).elim (.ok (blockAt t n)) .error := by
  rw [State.readBytes_eq, rangeFault_eq]
  show ite _ _ _ = Option.elim (ite (n = 0 ∨ t.indexAddr 0 + n ≤ 0x1000) _ _) _ _
  split <;> rfl

theorem writeBytes_block (t : State) (bs : List Byte) :
    t.writeBytes (t.indexAddr 0) bs =
      (rangeFault t.idx.toNat bs.length).elim
        (.ok { t with mem := Memory.writeAll t.mem (t.indexAddr 0) bs }) .error := by
  rw [State.writeBytes_eq, rangeFault_eq]
  simp only [List.length_eq_zero_iff]
  show ite _ _ _ = Option.elim (ite (bs = [] ∨ t.indexAddr 0 + bs.length ≤ 0x1000) _ _) _ _
  split <;> rfl

theorem regsTo_length (t : State) (x : Reg) : (t.regsTo x).length = x.val + 1 := by
  simp [State.regsTo_eq]

theorem setRegs_block (t : State) (x : Reg) :
    t.setRegs 0 (blockAt t (x.val + 1)) = effectOf (.ldRegs x) t := by
  rw [State.setRegs_frame]
  suffices h : (t.setRegs 0 (blockAt t (x.val + 1))).v = loadedRegs t.v t.mem (t.indexAddr 0) x by
    rw [h]; rfl
  ext r hr : 1
  have hset := State.reg_setRegs t 0 (blockAt t (x.val + 1)) ⟨r, hr⟩
  have hload := getElem_loadedRegs t.v t.mem (t.indexAddr 0) x ⟨r, hr⟩
  simp only [State.reg, Fin.getElem_fin] at hset hload
  rw [hset, hload]
  by_cases hx : r < x.val + 1
  · have hle : (⟨r, hr⟩ : Reg) ≤ x := Nat.le_of_lt_succ hx
    simp [blockAt, State.indexAddr, hx, hle]
  · have hle : ¬ (⟨r, hr⟩ : Reg) ≤ x := fun h => hx (Nat.lt_succ_of_le h)
    simp [blockAt, hx, hle]

/-- Every handler raises exactly the tabled fault and otherwise answers its closed form. -/
theorem handlerOf_eq (i : Instr) (t : State) :
    handlerOf i t = (faultOf i t).elim (.ok (effectOf i t)) .error := by
  cases i with
  | ret =>
    rcases List.eq_nil_or_concat t.stack with h | ⟨rest, v, h⟩
    · simp [handlerOf, handleRet, faultOf, State.pop_empty t h, h]
    · rw [List.concat_eq_append] at h
      simp [handlerOf, handleRet, faultOf, State.pop_concat t rest v h, h, effectOf, State.jump]
  | call nnn =>
    by_cases h : t.stack.length = 16
    · simp [handlerOf, handleCall, faultOf, State.push_full t _ h, h]
    · simp [handlerOf, handleCall, faultOf, State.push_room t _ h, h, effectOf, State.jump]
  | seImm x kk | sneImm x kk | seReg x y | sneReg x y => exact congrArg Except.ok (skipIf_eq t _)
  | skp x | sknp x =>
    simp only [handlerOf, handleSkp, handleSknp, faultOf]
    by_cases h : (t.reg x).toNat < 16
    · have hkey : (⟨(t.reg x).toNat, h⟩ : Key) = Fin.ofNat 16 (t.reg x).toNat :=
        Fin.ext (Nat.mod_eq_of_lt h).symm
      rw [State.keyOperand_ok t x h, if_neg (by omega), hkey]
      exact congrArg Except.ok (skipIf_eq t _)
    · rw [State.keyOperand_error t x h, if_pos (by omega)]
      rfl
  | ldVxK x =>
    cases h : t.latch <;>
      simp [handlerOf, handleLdVxK, faultOf, effectOf, h, State.setReg, State.rollBack]
  | drw x y n =>
    simp only [handlerOf, handleDrw, readBytes_block, faultOf]
    cases rangeFault t.idx.toNat n.toNat <;> rfl
  | ldB x => exact writeBytes_block t _
  | stRegs x =>
    have h := writeBytes_block t (t.regsTo x)
    rwa [regsTo_length] at h
  | ldRegs x =>
    simp only [handlerOf, handleLdRegs, readBytes_block, faultOf]
    cases rangeFault t.idx.toNat (x.val + 1) with
    | none => exact congrArg Except.ok (setRegs_block t x)
    | some c => rfl
  | _ => rfl

end Sys2Proof.Proofs

namespace Sys2Proof.Proofs

open Sys2Proof.Machine

/-! ### Execution: the tabled fault, or the instruction's effect (60_exceptions.md R211 to R213) -/

theorem faultOf_advance (i : Instr) (s : State) : faultOf i s.advance = faultOf i s := by
  cases i <;> rfl

theorem exec_of_fault {i : Instr} {s : State} {c : Fault} (h : faultOf i s = some c) :
    Raises i s c := by
  rw [Raises, exec_eq_runHandler]
  exact runHandler_error _ _ _ _ (by rw [handlerOf_eq, faultOf_advance, h]; rfl)

theorem exec_of_no_fault {i : Instr} {s : State} (h : faultOf i s = none) :
    exec i s = .next (effectOf i s.advance) := by
  rw [exec_eq_runHandler]
  exact runHandler_ok _ _ _ _ (by rw [handlerOf_eq, faultOf_advance, h]; rfl)

/-- Everything an instruction can do. -/
theorem exec_cases {i : Instr} {s t : State} (h : exec i s = .next t) :
    (∃ c, faultOf i s = some c ∧ t = s.takeFault c (some (encode i))) ∨
      (faultOf i s = none ∧ t = effectOf i s.advance) := by
  cases hf : faultOf i s with
  | some c =>
    rw [exec_of_fault hf] at h
    exact .inl ⟨c, rfl, by cases h; rfl⟩
  | none =>
    rw [exec_of_no_fault hf] at h
    exact .inr ⟨rfl, by cases h; rfl⟩

theorem completes_of_effect {i : Instr} {s : State} {P : State → Prop} (hf : faultOf i s = none)
    (hP : P (effectOf i s.advance)) : Completes i s P :=
  ⟨_, exec_of_no_fault hf, hP⟩

/-! ### The frame (00_scope.md R9) -/

/-- `s` with the components of `ws` taken from `u`. -/
def overwrite (ws : List Component) (s u : State) : State where
  v := if .regs ∈ ws then u.v else s.v
  idx := if .idx ∈ ws then u.idx else s.idx
  pc := if .pc ∈ ws then u.pc else s.pc
  stack := if .stack ∈ ws then u.stack else s.stack
  dt := if .dt ∈ ws then u.dt else s.dt
  st := if .st ∈ ws then u.st else s.st
  latch := if .latch ∈ ws then u.latch else s.latch
  lastKey := if .lastKey ∈ ws then u.lastKey else s.lastKey
  fault := if .fault ∈ ws then u.fault else s.fault
  mem := if .mem ∈ ws then u.mem else s.mem
  keys := if .keys ∈ ws then u.keys else s.keys
  disp := if .disp ∈ ws then u.disp else s.disp
  draws := if .draws ∈ ws then u.draws else s.draws

theorem frame_overwrite (ws : List Component) (s u : State) : Frame ws s (overwrite ws s u) := by
  intro c hc
  cases c <;> simp [Agree, overwrite, hc, State.reg, State.keyIsDown]

theorem frame_of_eq_overwrite {ws : List Component} {s t : State} (h : t = overwrite ws s t) :
    Frame ws s t := by
  rw [h]
  exact frame_overwrite ws s t

/-- A completed instruction writes `pc` and the components that its rule names. -/
theorem frame_effectOf (i : Instr) (s : State) :
    Frame (.pc :: writesOf i) s (effectOf i s.advance) :=
  frame_of_eq_overwrite (by cases i <;> rfl)

theorem pc_mem_writesOf {i : Instr} {s : State} (h : faultOf i s = none) : .pc ∈ writesOf i := by
  cases i with
  | invalid | jpV0 => cases h
  | _ => exact List.mem_cons_self

@[simp] theorem effectOf_fault (i : Instr) (t : State) : (effectOf i t).fault = t.fault := by
  cases i <;> rfl

/-- A completed instruction writes its destination and its flag register, and a block load V0 to Vx. -/
theorem reg_effectOf {i : Instr} {r : Reg} (t : State) (h : mayWriteReg i r = false) :
    (effectOf i t).reg r = t.reg r := by
  cases i with
  | ldImm x _ | addImm x _ | ldReg x _ | orReg x _ | andReg x _ | xorReg x _ | rnd x _ | ldVxDt x =>
    exact State.reg_setReg_ne t _ (by simpa [mayWriteReg] using h)
  | addReg x _ | sub x _ | subn x _ | shr x _ | shl x _ =>
    obtain ⟨hx, hvf⟩ : r ≠ x ∧ r ≠ VF := by simpa [mayWriteReg] using h
    exact (State.reg_setRegFlag t x r _ _).trans (by rw [if_neg hvf, if_neg hx])
  | drw x y n => exact State.reg_setReg_ne t _ (by simpa [mayWriteReg] using h)
  | ldVxK x =>
    have hne : r ≠ x := by simpa [mayWriteReg] using h
    simp only [effectOf]
    split
    · exact State.reg_setReg_ne t _ hne
    · rfl
  | ldRegs x =>
    have hgt : ¬ r ≤ x := by simpa [mayWriteReg] using h
    exact (getElem_loadedRegs ..).trans (if_neg hgt)
  | _ => rfl

/-- A completed instruction stores to the addresses of its block alone. -/
theorem read_effectOf {i : Instr} {s : State} {a : Nat} (h : mayStore i s a = false) :
    Memory.read (effectOf i s.advance).mem a = Memory.read s.mem a := by
  have hblock (bs : List Byte) (hbs : ¬ (s.indexAddr 0 ≤ a ∧ a < s.indexAddr 0 + bs.length)) :
      Memory.read (Memory.writeAll s.mem (s.indexAddr 0) bs) a = Memory.read s.mem a := by
    rw [Memory.read_writeAll]
    split
    · rw [List.getElem?_eq_none (by omega), Option.getD_none]
    · rfl
  cases i with
  | ldB x => exact hblock (bcdDigits (s.reg x)) (of_decide_eq_false h)
  | stRegs x =>
    exact hblock (s.regsTo x) (by rw [regsTo_length]; exact of_decide_eq_false h)
  | _ => rfl

/-- Settles O12: the handlers raise the tabled faults, and an effect leaves the fault status alone. -/
theorem faultsExactlyWhenTabled : Obligations.FaultsExactlyWhenTabled := by
  intro i s
  split
  case h_1 c hf => exact exec_of_fault hf
  case h_2 hf => exact completes_of_effect hf (effectOf_fault i s.advance)

/-- Settles O20: a fault taken writes the fault status alone, and an effect what the rule names. -/
theorem execWritesOnlyNamedState : Obligations.ExecWritesOnlyNamedState := by
  intro i s t h
  rcases exec_cases h with ⟨c, hf, rfl⟩ | ⟨hf, rfl⟩
  · refine ⟨fun k hk => ?_, fun hnone => ?_, fun _ _ => rfl, fun _ _ => rfl⟩
    · exact frame_of_eq_overwrite (ws := [.fault]) rfl k (by simp_all)
    · rw [hf] at hnone; cases hnone
  · refine ⟨fun k hk => frame_effectOf i s k ?_, fun _ => effectOf_fault i _,
      fun r hr => reg_effectOf s.advance hr, fun a ha => read_effectOf ha⟩
    have hpc := pc_mem_writesOf hf
    rintro (_ | ⟨_, hmem⟩)
    · exact hk (List.mem_cons_of_mem _ hpc)
    · exact hk (List.mem_cons_of_mem _ hmem)

/-- Settles O21: by the frame VF is a register that the instruction may write, so it is the flag or the
destination. -/
theorem flagRegisterWriters : Obligations.FlagRegisterWriters := by
  intro i s t h hne
  obtain ⟨-, -, hregs, -⟩ := execWritesOnlyNamedState i s t h
  have hvf : mayWriteReg i 15 = true := Bool.of_not_eq_false (mt (hregs 15) hne)
  cases i with
  | addReg | sub | subn | shr | shl | drw => exact .inl (by simp [Instr.opcode])
  | ldImm x | addImm x | rnd x | ldReg x | orReg x | andReg x | xorReg x | ldVxDt x | ldVxK x =>
    obtain rfl : 15 = x := eq_of_beq hvf
    simp
  | ldRegs x =>
    obtain rfl : x = 15 := le_antisymm (Fin.le_last x) (of_decide_eq_true hvf)
    exact .inr (.inl rfl)
  | _ => exact absurd hvf Bool.false_ne_true

/-! ### State that an instruction does not read -/

/-- An instruction commutes with a change of state that neither its fault nor its effect sees. -/
theorem exec_of_commutes {i : Instr} {s t : State} (u : State → State)
    (hfault : faultOf i (u s) = faultOf i s)
    (htake : ∀ c w, (u s).takeFault c w = u (s.takeFault c w))
    (heffect : effectOf i (u s).advance = u (effectOf i s.advance))
    (h : exec i s = .next t) : exec i (u s) = .next (u t) := by
  rcases exec_cases h with ⟨c, hf, rfl⟩ | ⟨hf, rfl⟩
  · rw [← htake]
    exact exec_of_fault (hfault.trans hf)
  · rw [← heffect]
    exact exec_of_no_fault (hfault.trans hf)

/-- Settles O22: the keys occur in the effects of the two key skips alone, and in no fault. -/
theorem keysSeenOnlyByKeySkips : Obligations.KeysSeenOnlyByKeySkips := by
  intro i s t keys hskp hsknp h
  refine exec_of_commutes (fun s => { s with keys := keys }) ?_ (fun _ _ => rfl) ?_ h
  · cases i <;> rfl
  · cases i with
    | skp => exact absurd rfl hskp
    | sknp => exact absurd rfl hsknp
    | _ => rfl

/-- Settles O23: no fault and no effect reads ST; LD ST, Vx overwrites it with Vx. -/
theorem soundTimerReadByNone : Obligations.SoundTimerReadByNone := by
  intro i s t b h
  by_cases hop : i.opcode = .ldStVx
  · rw [if_pos hop]
    cases i with
    | ldStVx x =>
      obtain rfl : t = effectOf (.ldStVx x) s.advance := by
        rw [exec_of_no_fault rfl] at h; cases h; rfl
      exact exec_of_no_fault rfl
    | _ => cases hop
  · rw [if_neg hop]
    refine exec_of_commutes (fun s => { s with st := b }) ?_ (fun _ _ => rfl) ?_ h
    · cases i <;> rfl
    · cases i with
      | ldStVx => exact absurd rfl hop
      | _ => rfl

/-- Settles O56: LD Vx, K alone reads the Keypad's key, and only where the latch holds one. -/
theorem lastKeyReadOnlyWhenReceived : Obligations.LastKeyReadOnlyWhenReceived := by
  intro i s t k hlatch h
  refine exec_of_commutes (fun s => { s with lastKey := k }) ?_ (fun _ _ => rfl) ?_ h
  · cases i <;> rfl
  · cases i with
    | ldVxK x => simp [effectOf, hlatch]
    | _ => rfl

end Sys2Proof.Proofs

namespace Sys2Proof.Proofs

open Sys2Proof.Machine

/-! ### The step (30_encoding.md R82, 60_exceptions.md R214, R216) -/

/-- R57: the big-endian word as a number; the two bytes have no bit in common. -/
theorem wordOfBytes_eq (hi lo : Byte) :
    wordOfBytes hi lo = BitVec.ofNat 16 (hi.toNat * 256 + lo.toNat) := by
  have hhi : hi.toNat < 2 ^ 8 := hi.isLt
  have hlo : lo.toNat < 2 ^ 8 := lo.isLt
  apply BitVec.eq_of_toNat_eq
  rw [wordOfBytes, BitVec.toNat_or, BitVec.toNat_shiftLeft, BitVec.toNat_setWidth_of_le (by decide),
    BitVec.toNat_setWidth_of_le (by decide), BitVec.toNat_ofNat, Nat.shiftLeft_eq,
    Nat.mod_eq_of_lt (by omega), Nat.mod_eq_of_lt (by omega), ← Nat.shiftLeft_eq,
    ← Nat.shiftLeft_add_eq_or_of_lt hlo, Nat.shiftLeft_eq]

/-- Settles O8: both bytes are in memory, so the fetch answers their word, which is decoded and run. -/
theorem stepRunsDecodedInstruction : Obligations.StepRunsDecodedInstruction := by
  intro s hf hpc
  rw [← wordOfBytes_eq]
  exact step_exec s _ hf (by rw [State.fetchWord_eq, if_pos hpc])

/-- Settles O9: the fetch raises for its lower address out of bounds; past `pc` itself that is 0x1000. -/
theorem fetchOutOfBoundsFaults : Obligations.FetchOutOfBoundsFaults := by
  intro s hf hpc
  refine step_fetch_error s _ hf ?_
  rw [State.fetchWord_eq, if_neg (by omega)]
  congr 2
  split <;> omega

theorem stepReturn_eq {s t : State} (h : step s = .next t) : stepReturn s = t.fault := by
  rw [stepReturn, h]

/-- Settles O10: a faulted engine's step answers its own state, fault included. -/
theorem faultIsSticky : Obligations.FaultIsSticky := fun s f h =>
  have hstep := step_faulted s f h
  ⟨hstep, (stepReturn_eq hstep).trans h⟩

theorem exec_next (i : Instr) (s : State) : ∃ t, exec i s = .next t := by
  rw [exec_eq_runHandler]
  exact runHandler_next _ _ _

/-- Settles O13: a pending fault, a failed fetch and an instruction's run each answer a next state. -/
theorem stepAnswersNext : Obligations.StepAnswersNext := by
  intro s
  cases hf : s.fault with
  | some f => exact ⟨s, step_faulted s f hf⟩
  | none =>
    cases hw : s.fetchWord with
    | error c => exact ⟨_, step_fetch_error s c hf hw⟩
    | ok w =>
      rw [step_exec s w hf hw]
      exact exec_next _ _

/-- Settles O11: a step without a fault pending takes one in the fetch or in the instruction, each of
which writes the fault status alone; an effect takes none. -/
theorem faultsArePrecise : Obligations.FaultsArePrecise := by
  intro s t f hs hstep ht
  suffices h : t = { s with fault := some f } ∧ f.pc = s.pc from
    ⟨h.1, h.2, (stepReturn_eq hstep).trans ht⟩
  rcases step_cases s t hstep with ⟨g, hg, -⟩ | ⟨-, c, -, rfl⟩ | ⟨-, w, -, hexec⟩
  · rw [hs] at hg; cases hg
  · cases ht; exact ⟨rfl, rfl⟩
  · rcases exec_cases hexec with ⟨c, -, rfl⟩ | ⟨-, rfl⟩
    · cases ht; exact ⟨rfl, rfl⟩
    · rw [effectOf_fault, State.advance_fault, hs] at ht; cases ht

/-! ### `pc`, the stack and memory after an effect (10_state.md R24, R27) -/

/-- Where an effect can leave `pc`: unchanged, skipped, rolled back, at a target, or at a popped entry. -/
theorem pc_effectOf {i : Instr} {t : State} (h : faultOf i t = none) :
    (effectOf i t).pc = t.pc ∨ (effectOf i t).pc = t.pc + 2 ∨ (effectOf i t).pc = t.pc - 2 ∨
      (∃ nnn, (i = .jp nnn ∨ i = .call nnn) ∧ (effectOf i t).pc = zext16 nnn) ∨
      (effectOf i t).pc ∈ t.stack := by
  cases i with
  | jp nnn => exact .inr (.inr (.inr (.inl ⟨nnn, .inl rfl, rfl⟩)))
  | call nnn => exact .inr (.inr (.inr (.inl ⟨nnn, .inr rfl, rfl⟩)))
  | ret =>
    have hne : t.stack ≠ [] := by rintro he; simp [faultOf, he] at h
    refine .inr (.inr (.inr (.inr ?_)))
    rw [effectOf, List.getLast?_eq_getLast_of_ne_nil hne, Option.getD_some]
    exact List.getLast_mem hne
  | seImm | sneImm | seReg | sneReg | skp | sknp =>
    simp only [effectOf]
    split
    · exact .inr (.inl rfl)
    · exact .inl rfl
  | ldVxK =>
    simp only [effectOf]
    split
    · exact .inl rfl
    · exact .inr (.inr (.inl rfl))
  | _ => exact .inl rfl

theorem mem_stack_effectOf {i : Instr} {t : State} {v : Word} (h : v ∈ (effectOf i t).stack) :
    v ∈ t.stack ∨ v = t.pc := by
  cases i with
  | ret => exact .inl (List.mem_of_mem_dropLast h)
  | call => simpa [effectOf] using h
  | _ => exact .inl h

theorem length_stack_effectOf {i : Instr} {t : State} (h : faultOf i t = none)
    (hlen : t.stack.length ≤ 16) : (effectOf i t).stack.length ≤ 16 := by
  cases i with
  | ret => simp [effectOf]; omega
  | call =>
    have hne : t.stack.length ≠ 16 := by intro he; simp [faultOf, he] at h
    simp [effectOf]; omega
  | _ => exact hlen

theorem wf_mem_effectOf {i : Instr} {t : State} (h : faultOf i t = none)
    (hwf : Memory.wf t.mem = true) : Memory.wf (effectOf i t).mem = true := by
  have hblock (bs : List Byte) (hr : rangeFault t.idx.toNat bs.length = none) :
      Memory.wf (Memory.writeAll t.mem (t.indexAddr 0) bs) = true := by
    rw [rangeFault_eq] at hr
    split at hr
    · exact Memory.wf_writeAll _ _ _ hwf (by rwa [← List.length_eq_zero_iff])
    · cases hr
  cases i with
  | ldB x => exact hblock (bcdDigits (t.reg x)) h
  | stRegs x => exact hblock (t.regsTo x) (by rwa [regsTo_length])
  | _ => exact hwf

/-- Settles O17: every place an effect can leave `pc` at is even, and the one entry pushed is the
advanced `pc`. -/
theorem pcStaysEven : Obligations.PcStaysEven := by
  intro i s t hpc hstack htarget h
  rcases exec_cases h with ⟨c, -, rfl⟩ | ⟨hf, rfl⟩
  · exact ⟨hpc, hstack⟩
  have hadv : (s.pc + 2).toNat % 2 = 0 := by bv_omega
  have ha : faultOf i s.advance = none := (faultOf_advance i s).trans hf
  constructor
  · rcases pc_effectOf ha with h | h | h | ⟨nnn, hi, h⟩ | h
    · rw [h]; exact hadv
    · rw [h, State.advance_pc]; bv_omega
    · rw [h, State.advance_pc]; bv_omega
    · rw [h, zext16_toNat]; exact htarget nnn hi
    · exact hstack _ h
  · intro v hv
    rcases mem_stack_effectOf hv with hv | rfl
    · exact hstack v hv
    · exact hadv

/-! ### The invariant (10_state.md R24, R27, 60_exceptions.md R212, R213) -/

/-- An instruction fetched from memory keeps the invariant, whether it faults or completes. -/
theorem inv_exec {i : Instr} {s t : State} (hinv : s.Inv) (hs : s.fault = none)
    (hpc : s.pc.toNat ≤ 0xFFE) (h : exec i s = .next t) : t.Inv := by
  obtain ⟨hmem, -, hdepth, hentries, -, -⟩ := hinv
  rcases exec_cases h with ⟨c, -, rfl⟩ | ⟨hf, rfl⟩
  · refine ⟨hmem, by simp; omega, hdepth, hentries, ?_, ?_⟩
    · rintro f ⟨⟩; rfl
    · rintro f ⟨⟩; simp; omega
  · have ha : faultOf i s.advance = none := (faultOf_advance i s).trans hf
    have hadv : (s.pc + 2).toNat = s.pc.toNat + 2 := by bv_omega
    have hnone : (effectOf i s.advance).fault = none := by rw [effectOf_fault]; exact hs
    refine ⟨wf_mem_effectOf ha hmem, ?_, length_stack_effectOf ha hdepth, ?_, ?_, ?_⟩
    · rcases pc_effectOf ha with h | h | h | ⟨nnn, -, h⟩ | h
      · rw [h, State.advance_pc]; omega
      · rw [h, State.advance_pc]; bv_omega
      · rw [h, State.advance_pc]; bv_omega
      · have := nnn.isLt
        rw [h, zext16_toNat]; omega
      · have := hentries _ h
        omega
    · intro v hv
      rcases mem_stack_effectOf hv with hv | rfl
      · exact hentries v hv
      · rw [State.advance_pc]; omega
    · rw [hnone]; rintro f ⟨⟩
    · rw [hnone]; rintro f ⟨⟩

/-- A fetch fails exactly where one of the two addresses is above 0xFFF. -/
theorem fetchWord_isOk_iff (s : State) : (∃ w, s.fetchWord = .ok w) ↔ s.pc.toNat ≤ 0xFFE := by
  rw [State.fetchWord_eq]
  split <;> simp_all

/-- Settles O14: a faulted engine stays as it is, a failed fetch records no word, and an instruction was
fetched from `pc` at most 0xFFE. -/
theorem stepKeepsInvariant : Obligations.StepKeepsInvariant := by
  intro s t hinv hstep
  rcases step_cases s t hstep with ⟨f, -, rfl⟩ | ⟨-, c, hfetch, rfl⟩ | ⟨hs, w, hfetch, hexec⟩
  · exact hinv
  · have hpc : s.pc.toNat > 0xFFE := by
      by_contra hle
      obtain ⟨w, hw⟩ := (fetchWord_isOk_iff s).mpr (by omega)
      rw [hw] at hfetch; cases hfetch
    refine ⟨hinv.mem, hinv.pc, hinv.depth, hinv.entries, ?_, ?_⟩
    · rintro f ⟨⟩; rfl
    · rintro f ⟨⟩; simpa using hpc
  · exact inv_exec hinv hs ((fetchWord_isOk_iff s).mp ⟨w, hfetch⟩) hexec

/-- Settles O15: reset lists no byte, has `pc` at 0x200, an empty stack and no fault. -/
theorem resetMeetsInvariant : Obligations.ResetMeetsInvariant where
  mem := rfl
  pc := by decide
  depth := by decide
  entries := by simp [State.reset]
  faultPc := by simp [State.reset]
  faultWord := by simp [State.reset]

/-- The invariant speaks of memory, `pc`, the stack and the fault status alone. -/
theorem inv_congr {s t : State} (hinv : s.Inv) (hmem : t.mem = s.mem) (hpc : t.pc = s.pc)
    (hstack : t.stack = s.stack) (hfault : t.fault = s.fault) : t.Inv := by
  obtain ⟨hwf, hbound, hdepth, hentries, hfaultPc, hfaultWord⟩ := hinv
  rw [← hmem] at hwf
  rw [← hpc] at hbound hfaultPc hfaultWord
  rw [← hstack] at hdepth hentries
  rw [← hfault] at hfaultPc hfaultWord
  exact ⟨hwf, hbound, hdepth, hentries, hfaultPc, hfaultWord⟩

theorem inv_hostStep {op : HostOp} {s t : State} (hinv : s.Inv) (h : hostStep op s = .next t) :
    t.Inv := by
  cases op with
  | step => exact stepKeepsInvariant s t hinv h
  | tickTimers => cases h; exact inv_congr hinv rfl rfl rfl rfl
  | keyDown k =>
    simp only [hostStep, keyDown] at h
    split at h
    · cases h; apply inv_congr hinv <;> simp
    · cases h
  | keyUp k =>
    simp only [hostStep, keyUp] at h
    split at h
    · cases h; exact inv_congr hinv rfl rfl rfl rfl
    · cases h

theorem inv_hostRun {ops : List HostOp} {s t : State} (hinv : s.Inv) (h : hostRun ops s = .next t) :
    t.Inv := by
  induction ops generalizing s with
  | nil => cases h; exact hinv
  | cons op ops ih =>
    cases hop : hostStep op s with
    | next u => exact ih (inv_hostStep hinv hop) (by simpa [hostRun, hop] using h)
    | fault f => simp [hostRun, hop] at h
    | refused r => simp [hostRun, hop] at h

/-- Construction from an image that fits writes it to memory, and is refused for a longer one. -/
theorem construct_eq (rom : List Byte) :
    construct rom =
      if rom.length ≤ 3584 then .next { State.reset with mem := Memory.writeAll [] 0x200 rom }
      else .refused (.romTooLarge rom.length) := by
  unfold construct
  rw [State.writeBytes_eq]
  by_cases h : rom.length ≤ 3584
  · have hfit : Config.romBase + rom.length ≤ 0x1000 := by rw [Config.romBase]; omega
    rw [if_neg (by rw [Config.romMax]; omega), if_pos (.inr hfit), if_pos h]
    rfl
  · rw [if_pos (by rw [Config.romMax]; omega), if_neg h]

/-- Settles O16: construction writes inside memory and every host operation keeps the invariant. -/
theorem reachableStatesMeetInvariant : Obligations.ReachableStatesMeetInvariant := by
  rintro s ⟨rom, s0, ops, hconstruct, hrun⟩
  rw [construct_eq] at hconstruct
  split at hconstruct
  · rename_i hlen
    cases hconstruct
    obtain ⟨hnil, hpc, hdepth, hentries, hfaultPc, hfaultWord⟩ := resetMeetsInvariant
    have hmem := Memory.wf_writeAll [] 0x200 rom hnil (.inr (by omega))
    have hloaded : State.Inv { State.reset with mem := Memory.writeAll [] 0x200 rom } :=
      ⟨hmem, hpc, hdepth, hentries, hfaultPc, hfaultWord⟩
    exact inv_hostRun hloaded hrun
  · cases hconstruct

/-! ### Reset and construction (20_memory.md section 2, 70_reset_and_hazards.md section 1) -/

/-- The font has 80 bytes; beyond them an unlisted address reads as zero. -/
theorem unlisted_eq (a : Nat) :
    Memory.unlisted a = if a < 80 then (Config.font[a]?).getD 0 else 0 := by
  split
  · rfl
  · rw [Memory.unlisted, List.getElem?_eq_none (by simpa [Config.font] using ‹¬ a < 80›)]
    rfl

/-- Settles O18: reset's fields as they stand. -/
theorem resetValues : Obligations.ResetValues := by
  refine ⟨?regs, rfl, rfl, rfl, rfl, rfl, rfl, rfl, rfl, rfl, rfl, rfl, ?keys, ?pixels, ?mem⟩
  case regs => simp [State.reset, State.reg]
  case keys => simp [State.reset, State.keyIsDown]
  case pixels => exact Display.pixel_clear
  case mem => exact unlisted_eq

/-- Settles O19: the image reads back in order from 0x200 and every other address as unlisted. -/
theorem constructionLoadsImage : Obligations.ConstructionLoadsImage := by
  intro rom
  rw [construct_eq]
  split
  · refine ⟨_, rfl, frame_of_eq_overwrite rfl, fun a => ?_⟩
    rw [Memory.read_writeAll, Memory.read_nil, unlisted_eq]
    by_cases hlo : 0x200 ≤ a
    · have hfont : ¬ a < 80 := by omega
      by_cases hhi : a < 0x200 + rom.length
      · simp only [hlo, hhi, hfont, and_self, if_true, if_false]
      · rw [List.getElem?_eq_none (by omega)]
        simp only [hlo, hhi, hfont, and_false, if_true, if_false, Option.getD_none]
    · simp only [hlo, false_and, if_false]
  · exact ⟨rfl, rfl⟩

end Sys2Proof.Proofs

namespace Sys2Proof.Proofs

open Sys2Proof.Machine

/-! ### Control transfer (40_control.md R100, R102, R104, R109) -/

theorem encode_jpV0 (nnn : BitVec 12) :
    encode (.jpV0 nnn) = BitVec.ofNat 16 (0xB000 + nnn.toNat) := by
  have hdisjoint : 0xB000#16 &&& nnn.setWidth 16 = 0#16 := by
    ext i hi
    interval_cases i <;> simp [BitVec.getLsbD_of_ge]
  calc encode (.jpV0 nnn) = 0xB000#16 + nnn.setWidth 16 :=
        (BitVec.add_eq_or_of_and_eq_zero _ _ hdisjoint).symm
    _ = BitVec.ofNat 16 (0xB000 + nnn.toNat) := BitVec.eq_of_toNat_eq (by simp)

/-- Settles O24: the table names a fault for these two whatever the state. -/
theorem invalidAndOffsetJumpRaise : Obligations.InvalidAndOffsetJumpRaise := fun _ nnn _ =>
  ⟨exec_of_fault rfl, encode_jpV0 nnn ▸ exec_of_fault rfl⟩

theorem effectOf_ret_of_concat {t : State} {rest : List Word} {v : Word} (h : t.stack = rest ++ [v]) :
    effectOf .ret t = { t with pc := v, stack := rest } := by
  simp [effectOf, h]

theorem faultOf_ret_of_concat {s : State} {rest : List Word} {v : Word} (h : s.stack = rest ++ [v]) :
    faultOf .ret s = none := by
  simp [faultOf, h]

/-- Settles O26: the table names underflow for the empty stack alone, and the effect pops the last entry. -/
theorem retPopsReturnAddress : Obligations.RetPopsReturnAddress := by
  constructor
  · intro s rest v h
    refine completes_of_effect (faultOf_ret_of_concat h) ?_
    rw [effectOf_ret_of_concat (t := s.advance) h]
    exact ⟨rfl, rfl, frame_of_eq_overwrite rfl⟩
  · intro s h
    exact exec_of_fault (by simp [faultOf, h])

/-- Settles O28: the table names overflow for the full stack alone, and the effect pushes the advanced
`pc`. -/
theorem callPushesReturnAddress : Obligations.CallPushesReturnAddress := by
  intro nnn s
  split
  case isTrue h => exact exec_of_fault (if_pos h)
  case isFalse h =>
    exact completes_of_effect (if_neg h) ⟨zext16_toNat nnn, rfl, frame_of_eq_overwrite rfl⟩

/-- Settles O29: the entry that CALL pushes is the one that RET pops, and it is the advanced `pc`. -/
theorem callThenRetReturns : Obligations.CallThenRetReturns := by
  intro nnn s h
  refine completes_of_effect (if_neg (by omega)) ⟨zext16_toNat nnn, ?_⟩
  have hstack : (effectOf (.call nnn) s.advance).stack = s.stack ++ [s.pc + 2] := rfl
  rw [exec_of_no_fault (faultOf_ret_of_concat hstack),
    effectOf_ret_of_concat (t := (effectOf (.call nnn) s.advance).advance) hstack]
  rfl

/-! ### SUBN, RND and ADD I (41_alu.md R139, R142, 42_index_memory.md R161) -/

theorem subnFlag_toNat (a b : Byte) :
    (subnFlag Config.subnVf a b).toNat = if b.toNat > a.toNat then 0 else 1 := by
  by_cases h : b.toNat > a.toNat <;> simp [subnFlag, Config.subnVf, h]

/-- Settles O37: the wrapped difference Vy - Vx, then the flag of SUB's comparison. -/
theorem subnReversedFlag : Obligations.SubnReversedFlag := by
  intro x y s
  refine completes_of_effect rfl ⟨?flag, fun hx => ?result, rfl, fun r hr => ?regs,
    frame_of_eq_overwrite rfl⟩
  case flag =>
    rw [← subnFlag_toNat, ← flagByte_toNat]
    exact congrArg BitVec.toNat (State.reg_setReg_same ..)
  case result =>
    rw [← sub_toNat]
    exact congrArg BitVec.toNat ((State.reg_setReg_ne _ _ hx).trans (State.reg_setReg_same ..))
  case regs => exact reg_effectOf s.advance (by simpa [mayWriteReg] using hr)

/-- Settles O39: the draw of this state's counter, masked bit by bit by `kk`. -/
theorem randomIsMasked : Obligations.RandomIsMasked := by
  intro x kk s
  have hx : (effectOf (.rnd x kk) s.advance).reg x = Config.randomByte s.draws &&& kk :=
    State.reg_setReg_same ..
  refine completes_of_effect rfl ⟨hx, fun n hn => ?bits, fun hkk => ?zero, rfl, rfl,
    fun r hr => ?regs, frame_of_eq_overwrite rfl⟩
  case bits => rw [hx, BitVec.getLsbD_and, hn, Bool.and_false]
  case zero => rw [hx, hkk]; exact BitVec.and_zero
  case regs => exact reg_effectOf s.advance (by simpa [mayWriteReg] using hr)

/-- Settles O41: the sum of two 16-bit words. -/
theorem addIndexWraps : Obligations.AddIndexWraps := by
  intro x s
  refine completes_of_effect rfl ⟨?_, rfl, frame_of_eq_overwrite rfl⟩
  exact (BitVec.toNat_add _ _).trans (by rw [BitVec.toNat_setWidth_of_le (by decide)]; rfl)

/-! ### The stores and loads through `I` (42_index_memory.md R163 to R166) -/

theorem rangeFault_none {a n : Nat} (h : a + n ≤ 0x1000) : rangeFault a n = none :=
  if_pos (.inr h)

theorem rangeFault_some {a n : Nat} (hn : n ≠ 0) (h : ¬ a + n ≤ 0x1000) :
    rangeFault a n = some (.memoryOutOfBounds (if a ≤ 0xFFF then 0x1000 else a)) :=
  if_neg (by tauto)

theorem read_writeAll_of_lt {m : Memory} {a k : Nat} {bs : List Byte} (h : k < bs.length) :
    Memory.read (Memory.writeAll m a bs) (a + k) = bs[k] := by
  simp [Memory.read_writeAll, h]

theorem regsTo_getElem (s : State) (x r : Reg) (h : r.val < (s.regsTo x).length) :
    (s.regsTo x)[r.val] = s.reg r := by
  simp [State.regsTo, State.reg]

/-- Settles O42: the three digits are stored in order where they fit, and each fits a byte. -/
theorem bcdStoresDigits : Obligations.BcdStoresDigits := by
  intro x s
  have hbyte : (s.reg x).toNat < 256 := (s.reg x).isLt
  have hdigit {k d : Nat} (hd : (bcdDigits (s.reg x))[k]? = some (BitVec.ofNat 8 d))
      (hlt : d < 256) :
      (Memory.read (effectOf (.ldB x) s.advance).mem (s.indexAddr 0 + k)).toNat = d := by
    obtain ⟨hk, hget⟩ := List.getElem?_eq_some_iff.mp hd
    have hread : Memory.read (effectOf (.ldB x) s.advance).mem (s.indexAddr 0 + k) =
        BitVec.ofNat 8 d := (read_writeAll_of_lt hk).trans hget
    rw [hread, BitVec.toNat_ofNat, Nat.mod_eq_of_lt hlt]
  split
  case isTrue h =>
    refine completes_of_effect (rangeFault_none h) ⟨hdigit (k := 0) rfl (by omega),
      hdigit rfl (by omega), hdigit rfl (by omega), fun a ha => ?_, rfl, frame_of_eq_overwrite rfl⟩
    exact read_effectOf (i := .ldB x) (decide_eq_false (by omega))
  case isFalse h => exact exec_of_fault (rangeFault_some (by decide) h)

/-- Settles O43: the list stored is V0 to Vx in order. -/
theorem storeRegistersBlock : Obligations.StoreRegistersBlock := by
  intro x s
  split
  case isTrue h =>
    refine completes_of_effect (rangeFault_none h)
      ⟨fun r hr => ?_, fun a ha => ?_, rfl, frame_of_eq_overwrite rfl⟩
    · have hlen : r.val < (s.regsTo x).length := by rw [regsTo_length]; exact Nat.lt_succ_of_le hr
      exact (read_writeAll_of_lt hlen).trans (regsTo_getElem s x r hlen)
    · exact read_effectOf (i := .stRegs x) (decide_eq_false (by omega))
  case isFalse h => exact exec_of_fault (rangeFault_some (Nat.succ_ne_zero _) h)

/-- Settles O44: register r is loaded from I + r up to x and kept above it. -/
theorem loadRegistersBlock : Obligations.LoadRegistersBlock := by
  intro x s
  split
  case isTrue h =>
    refine completes_of_effect (rangeFault_none h) ⟨fun r => ?_, rfl, frame_of_eq_overwrite rfl⟩
    exact getElem_loadedRegs s.v s.mem (s.indexAddr 0) x r
  case isFalse h => exact exec_of_fault (rangeFault_some (Nat.succ_ne_zero _) h)

/-- Settles O45: the next fetch reads the first two bytes of the block, V0 and V1, as its word. -/
theorem fetchSeesStores : Obligations.FetchSeesStores := by
  intro x s hx hidx hfit
  have hstore := storeRegistersBlock x s
  rw [if_pos hfit] at hstore
  obtain ⟨t, hexec, hread, -, hpc, -⟩ := hstore
  refine ⟨t, hexec, show t.fetchWord = _ from ?_⟩
  have hx1 : 1 ≤ x.val := hx
  have hnext : t.pc.toNat = s.indexAddr 0 := by rw [hpc, hidx]; bv_omega
  have hhigh : Memory.read t.mem (s.indexAddr 0) = s.reg 0 := hread 0 (Fin.zero_le x)
  have hlow : Memory.read t.mem (s.indexAddr 0 + 1) = s.reg 1 := hread 1 hx
  rw [State.fetchWord_eq, hnext, if_pos (by omega), hhigh, hlow, wordOfBytes_eq]

/-! ### The key skips (43_io_timers.md R181, R182) -/

theorem pc_skip_toNat (s : State) (b : Bool) :
    (if b then s.advance.pc + 2 else s.advance.pc).toNat =
      (s.pc.toNat + if b then 4 else 2) % 65536 := by
  rw [← State.skipIf_pc]
  exact skipIf_advance_pc_toNat s b

/-- Settles O49: up to 15 the register names its key, whose state is the skip's test. -/
theorem keySkips : Obligations.KeySkips := by
  intro x s
  split
  case isTrue h =>
    have hkey : Fin.ofNat 16 (s.reg x).toNat = ⟨(s.reg x).toNat, h⟩ := Fin.ext (Nat.mod_eq_of_lt h)
    have hin : ¬ (s.reg x).toNat > 15 := by omega
    have hnot (b : Bool) : (if b then 2 else 4) = if !b then 4 else 2 := by cases b <;> rfl
    refine ⟨completes_of_effect (if_neg hin) ⟨?skp, frame_of_eq_overwrite rfl⟩,
      completes_of_effect (if_neg hin) ⟨?sknp, frame_of_eq_overwrite rfl⟩⟩
    case skp => rw [← hkey]; exact pc_skip_toNat s _
    case sknp => rw [← hkey, hnot]; exact pc_skip_toNat s _
  case isFalse h =>
    have hout : (s.reg x).toNat > 15 := by omega
    exact ⟨exec_of_fault (if_pos hout), exec_of_fault (if_pos hout)⟩

/-! ### The wait for a key (43_io_timers.md R184) -/

/-- A wait without a key rolls the default advance back and leaves the latch waiting. -/
theorem exec_ldVxK_waits (x : Reg) {s : State} (h : s.latch ≠ .waitingKeyReceived) :
    exec (.ldVxK x) s = .next { s with latch := .waitingNoKey } := by
  rw [exec_of_no_fault rfl]
  simp [effectOf, h]

theorem exec_ldVxK_stores (x : Reg) {s : State} (h : s.latch = .waitingKeyReceived) :
    exec (.ldVxK x) s =
      .next { s.advance.setReg x (BitVec.ofNat 8 s.lastKey.val) with latch := .notWaiting } := by
  rw [exec_of_no_fault rfl]
  simp [effectOf, h, State.setReg]

theorem storedKey_toNat (s : State) (x : Reg) (k : Key) (l : Latch) :
    (({ s.setReg x (BitVec.ofNat 8 k.val) with latch := l } : State).reg x).toNat = k.val := by
  refine (congrArg BitVec.toNat (State.reg_setReg_same s x (BitVec.ofNat 8 k.val))).trans ?_
  rw [BitVec.toNat_ofNat, Nat.mod_eq_of_lt (by omega)]

/-- Settles O51: the three values of the latch. -/
theorem waitForKey : Obligations.WaitForKey := by
  intro x s
  cases h : s.latch with
  | notWaiting =>
    exact ⟨_, exec_ldVxK_waits x (by simp [h]), rfl, frame_of_eq_overwrite rfl⟩
  | waitingNoKey =>
    have hsame : { s with latch := .waitingNoKey } = s := by rw [← h]
    exact ⟨s, (exec_ldVxK_waits x (by simp [h])).trans (congrArg _ hsame), frame_of_eq_overwrite rfl⟩
  | waitingKeyReceived =>
    exact ⟨_, exec_ldVxK_stores x h, storedKey_toNat s.advance x s.lastKey _, rfl, rfl,
      fun r hr => State.reg_setReg_ne _ _ (by simpa using hr), frame_of_eq_overwrite rfl⟩

theorem step_waits {x : Reg} {s : State} {w : Word} (hs : s.fault = none) (hw : s.fetchWord = .ok w)
    (hdec : decode w = .ldVxK x) (hlatch : s.latch ≠ .waitingKeyReceived) :
    step s = .next { s with latch := .waitingNoKey } := by
  rw [step_exec s w hs hw, hdec]
  exact exec_ldVxK_waits x hlatch

theorem run_succ_of_step {s t : State} (h : step s = .next t) (n : Nat) :
    Sys2Proof.core.run (n + 1) s = Sys2Proof.core.run n t := by
  simp [Host.Core.run, Sys2Proof.core, h]

theorem step_stores {x : Reg} {s : State} {w : Word} (hs : s.fault = none) (hw : s.fetchWord = .ok w)
    (hdec : decode w = .ldVxK x) (hlatch : s.latch = .waitingKeyReceived) :
    step s = .next { s.advance.setReg x (BitVec.ofNat 8 s.lastKey.val) with latch := .notWaiting } := by
  rw [step_exec s w hs hw, hdec]
  exact exec_ldVxK_stores x hlatch

/-- Settles O52: by induction on the number of steps; after the first the latch is WaitingNoKey, and
nothing that the fetch reads has changed. -/
theorem waitPersistsWithoutKey : Obligations.WaitPersistsWithoutKey := by
  intro n
  induction n with
  | zero =>
    intro x s w hs hw hdec hlatch
    exact run_succ_of_step (step_waits hs hw hdec hlatch) 0
  | succ n ih =>
    intro x s w hs hw hdec hlatch
    rw [run_succ_of_step (step_waits hs hw hdec hlatch)]
    exact ih x { s with latch := .waitingNoKey } w hs hw hdec (by simp)

theorem hostRun_cons {op : HostOp} {s t : State} (h : hostStep op s = .next t) (ops : List HostOp) :
    hostRun (op :: ops) s = hostRun ops t := by
  simp [hostRun, h]

theorem latchKey_eq (s : State) (k : Key) :
    s.latchKey k =
      { s with
        latch := if s.latch = .notWaiting then .notWaiting else .waitingKeyReceived
        lastKey := if s.latch = .notWaiting then s.lastKey else k } := by
  cases h : s.latch with
  | notWaiting =>
    simp only [State.latchKey, h, if_true]
    rw [← h]
  | waitingNoKey | waitingKeyReceived => simp [State.latchKey, h]

/-- `s` in a wait that has received the key `k`, with the keys of later events (R226). -/
def received (s : State) (k : Key) (keys : Vector Bool 16) : State :=
  { s with latch := .waitingKeyReceived, lastKey := k, keys := keys }

theorem keyDown_waiting {s : State} {k : Nat} (hk : k < 16) :
    hostStep (.keyDown k) { s with latch := .waitingNoKey } =
      .next (received s ⟨k, hk⟩ (s.keys.set k true)) :=
  dif_pos hk

theorem keyUp_received {s : State} {k : Key} {keys : Vector Bool 16} {j : Nat} (hj : j < 16) :
    hostStep (.keyUp j) (received s k keys) = .next (received s k (keys.set j false)) :=
  dif_pos hj

/-- Settles O53: the step begins to wait, the key-down is latched and the key-up leaves it, and the next
step fetches the same instruction and stores the key. -/
theorem keyDownEndsWait : Obligations.KeyDownEndsWait := by
  intro k j x s w hk hj hs hw hdec hlatch
  have hwait : hostStep .step s = .next { s with latch := .waitingNoKey } :=
    step_waits hs hw hdec hlatch
  obtain ⟨keys, hkeys⟩ : ∃ keys, keys = (s.keys.set k true).set j false := ⟨_, rfl⟩
  have hstore := step_stores (s := received s ⟨k, hk⟩ keys) hs hw hdec rfl
  have hkey := storedKey_toNat (received s ⟨k, hk⟩ keys).advance x ⟨k, hk⟩ .notWaiting
  refine ⟨_, ?_, hkey, rfl, rfl, hs⟩
  calc hostRun [.step, .keyDown k, .keyUp j, .step] s
      = hostRun [.keyDown k, .keyUp j, .step] _ := hostRun_cons hwait _
    _ = hostRun [.keyUp j, .step] _ := hostRun_cons (keyDown_waiting hk) _
    _ = hostRun [.step] (received s ⟨k, hk⟩ keys) := hkeys ▸ hostRun_cons (keyUp_received hj) _
    _ = .next _ := hostRun_cons (op := .step) hstore []

/-! ### The host's ticks and key events (60_exceptions.md R221, R226) -/

theorem timerTick_toNat (b : Byte) : (timerTick b).toNat = b.toNat - 1 := by
  unfold timerTick
  split <;> bv_omega

theorem timerTick_iterate_toNat (n : Nat) (b : Byte) : (timerTick^[n] b).toNat = b.toNat - n := by
  induction n generalizing b with
  | zero => rfl
  | succ n ih => rw [Function.iterate_succ_apply, ih, timerTick_toNat, Nat.sub_sub, Nat.add_comm 1]

theorem hostRun_ticks (n : Nat) (s : State) :
    hostRun (List.replicate n .tickTimers) s =
      .next { s with dt := timerTick^[n] s.dt, st := timerTick^[n] s.st } := by
  induction n generalizing s with
  | zero => rfl
  | succ n ih => exact (hostRun_cons rfl _).trans (ih (tickTimers s))

/-- Settles O54: `n` ticks are `n` single ones on each timer, each down by one with a floor of zero. -/
theorem ticksCountDown : Obligations.TicksCountDown := by
  intro n s
  have hst := timerTick_iterate_toNat n s.st
  refine ⟨_, hostRun_ticks n s, timerTick_iterate_toNat n s.dt, hst, ?_, frame_of_eq_overwrite rfl⟩
  simp only [soundState, hst, decide_eq_true_iff]
  omega

theorem getElem_set_key (keys : Vector Bool 16) (k : Nat) (h : k < 16) (b : Bool) (q : Key) :
    (keys.set k b)[q] = if q.val = k then b else keys[q] := by
  simp [Vector.getElem_set, eq_comm]

/-- Settles O55: both events set one entry of the keys; the latch takes a key-down where it waits. -/
theorem keyEvents : Obligations.KeyEvents := by
  intro k s
  split
  case isTrue h =>
    constructor
    · refine ⟨_, (dif_pos h).trans (congrArg _ (latchKey_eq _ _)), fun q => ?_, rfl, rfl,
        frame_of_eq_overwrite rfl⟩
      refine (getElem_set_key s.keys k h true q).trans ?_
      by_cases hq : q.val = k <;> simp [hq, State.keyIsDown]
    · refine ⟨_, dif_pos h, fun q => ?_, frame_of_eq_overwrite rfl⟩
      refine (getElem_set_key s.keys k h false q).trans ?_
      by_cases hq : q.val = k <;> simp [hq, State.keyIsDown]
  case isFalse h => exact ⟨dif_neg h, dif_neg h⟩

end Sys2Proof.Proofs

namespace Sys2Proof.Proofs

open Sys2Proof.Machine

/-! ### Canonical memory (20_memory.md R50, log 5) -/

theorem read_cons_same (a : Nat) (u : Byte) (m : Memory) : Memory.read ((a, u) :: m) a = u :=
  if_pos rfl

theorem read_cons_ne {a b : Nat} (u : Byte) (m : Memory) (h : b ≠ a) :
    Memory.read ((a, u) :: m) b = Memory.read m b :=
  if_neg h

theorem read_eq_unlisted {m : Memory} {a : Nat} (h : ∀ c ∈ m, c.1 ≠ a) :
    Memory.read m a = Memory.unlisted a := by
  induction m with
  | nil => rfl
  | cons c m ih =>
    obtain ⟨hc, hm⟩ := List.forall_mem_cons.mp h
    rw [read_cons_ne c.2 m hc.symm, ih hm]

/-- A listed byte differs from the unlisted one, so a memory that reads the same lists its address. -/
theorem exists_entry_of_read_eq {a : Nat} {u : Byte} {m n : Memory}
    (hwf : Memory.wf ((a, u) :: m) = true) (h : u = Memory.read n a) : ∃ c ∈ n, c.1 = a := by
  obtain ⟨-, hu, -, -⟩ := (Memory.wf_cons a u m).mp hwf
  by_contra hnone
  push Not at hnone
  exact hu (h.trans (read_eq_unlisted hnone))

/-- The first address of a canonical memory is the lowest. -/
theorem head_le {a : Nat} {u : Byte} {m : Memory} (hwf : Memory.wf ((a, u) :: m) = true) :
    ∀ c ∈ (a, u) :: m, a ≤ c.1 := by
  obtain ⟨-, -, hlt, -⟩ := (Memory.wf_cons a u m).mp hwf
  exact List.forall_mem_cons.mpr ⟨le_rfl, fun c hc => (hlt c hc).le⟩

/-- Settles O46: by induction on the first list; both heads are the lowest address that does not read
as unlisted, and the tails read as unlisted there. -/
theorem canonicalMemoryUnique : Obligations.CanonicalMemoryUnique := by
  intro m
  induction m with
  | nil =>
    intro n _ hn hread
    cases n with
    | nil => rfl
    | cons c n =>
      obtain ⟨d, hd, -⟩ := exists_entry_of_read_eq hn ((read_cons_same ..).symm.trans (hread c.1).symm)
      cases hd
  | cons c m ih =>
    intro n hm hn hread
    obtain ⟨a, u⟩ := c
    have hu : u = Memory.read n a := (read_cons_same a u m).symm.trans (hread a)
    cases n with
    | nil =>
      obtain ⟨d, hd, -⟩ := exists_entry_of_read_eq hm hu
      cases hd
    | cons d n =>
      obtain ⟨b, v⟩ := d
      have hv : v = Memory.read ((a, u) :: m) b := (read_cons_same b v n).symm.trans (hread b).symm
      have hab : a = b := by
        obtain ⟨c, hc, rfl⟩ := exists_entry_of_read_eq hm hu
        obtain ⟨d, hd, rfl⟩ := exists_entry_of_read_eq hn hv
        exact le_antisymm (head_le hm _ hd) (head_le hn _ hc)
      subst hab
      obtain rfl : u = v := hu.trans (read_cons_same a v n)
      obtain ⟨-, -, hltm, hwfm⟩ := (Memory.wf_cons a u m).mp hm
      obtain ⟨-, -, hltn, hwfn⟩ := (Memory.wf_cons a u n).mp hn
      refine congrArg _ (ih n hwfm hwfn fun c => ?_)
      by_cases hc : c = a
      · rw [hc, read_eq_unlisted fun d hd => (hltm d hd).ne',
          read_eq_unlisted fun d hd => (hltn d hd).ne']
      · rw [← read_cons_ne u m hc, ← read_cons_ne u n hc, hread c]

/-! ### Drawing (60_exceptions.md R225) -/

theorem lt_of_pixel {d : Display} {r c : Nat} (h : Display.pixel d r c = true) : r < 32 ∧ c < 64 := by
  by_contra hout
  simp [Display.pixel, hout] at h

/-- `b'` is `b` with the pixels of `cov` drawn: each one inside the buffer is flipped, and the collision
flag is set besides where one of them was set. -/
def Drawn (b b' : Display × Bool) (cov : Nat → Nat → Bool) : Prop :=
  (∀ r c, r < 32 → c < 64 → Display.pixel b'.1 r c = (Display.pixel b.1 r c ^^ cov r c)) ∧
    (b'.2 = true ↔
      b.2 = true ∨ ∃ r c, r < 32 ∧ c < 64 ∧ Display.pixel b.1 r c = true ∧ cov r c = true)

theorem drawn_congr {b b' : Display × Bool} {cov cov' : Nat → Nat → Bool} (h : Drawn b b' cov)
    (hcov : ∀ r c, cov' r c = cov r c) : Drawn b b' cov' := by
  obtain rfl : cov' = cov := funext₂ hcov
  exact h

theorem drawn_nothing {cov : Nat → Nat → Bool} (b : Display × Bool) (h : ∀ r c, cov r c = false) :
    Drawn b b cov :=
  ⟨by simp [h], by simp [h]⟩

/-- Two sprites without a pixel in common draw as one. -/
theorem drawn_trans {b b' b'' : Display × Bool} {cov cov' : Nat → Nat → Bool} (h : Drawn b b' cov)
    (h' : Drawn b' b'' cov') (hdisjoint : ∀ r c, cov r c = true → cov' r c = false) :
    Drawn b b'' fun r c => cov r c || cov' r c := by
  obtain ⟨hpix, hcol⟩ := h
  obtain ⟨hpix', hcol'⟩ := h'
  have hold : ∀ r c, r < 32 → c < 64 → cov' r c = true →
      Display.pixel b'.1 r c = Display.pixel b.1 r c := by
    intro r c hr hc hcov'
    have hcov : cov r c = false := Bool.eq_false_iff.mpr fun h => by
      rw [hdisjoint r c h] at hcov'
      cases hcov'
    rw [hpix r c hr hc, hcov, Bool.xor_false]
  constructor
  · intro r c hr hc
    rw [hpix' r c hr hc, hpix r c hr hc]
    cases hcov : cov r c with
    | false => simp [hcov]
    | true => simp [hcov, hdisjoint r c hcov]
  · rw [hcol', hcol]
    constructor
    · rintro ((hb | ⟨r, c, hr, hc, hset, hcov⟩) | ⟨r, c, hr, hc, hset, hcov⟩)
      · exact .inl hb
      · exact .inr ⟨r, c, hr, hc, hset, by simp [hcov]⟩
      · exact .inr ⟨r, c, hr, hc, hold r c hr hc hcov ▸ hset, by simp [hcov]⟩
    · rintro (hb | ⟨r, c, hr, hc, hset, hcov⟩)
      · exact .inl (.inl hb)
      · rcases Bool.or_eq_true _ _ |>.mp hcov with hcov | hcov
        · exact .inl (.inr ⟨r, c, hr, hc, hset, hcov⟩)
        · exact .inr ⟨r, c, hr, hc, (hold r c hr hc hcov).trans hset, hcov⟩

theorem drawn_blitPixel (b : Display × Bool) (py px : Nat) :
    Drawn b (blitPixel b py px) fun r c => decide (r = py ∧ c = px) := by
  rw [blitPixel_eq]
  constructor
  · intro r c hr hc
    rw [Display.pixel_toggle]
    by_cases h : r = py ∧ c = px
    · obtain ⟨rfl, rfl⟩ := h
      simp [hr, hc]
    · rw [if_neg (by tauto)]
      simp [h]
  · simp only [Bool.or_eq_true, decide_eq_true_iff]
    refine or_congr_right ⟨fun hset => ?_, ?_⟩
    · obtain ⟨hr, hc⟩ := lt_of_pixel hset
      exact ⟨py, px, hr, hc, hset, rfl, rfl⟩
    · rintro ⟨r, c, -, -, hset, rfl, rfl⟩
      exact hset

/-- The first `k` pixels of a sprite row. -/
def rowCovers (row : Byte) (x0 py k r c : Nat) : Bool :=
  decide (r = py ∧ x0 ≤ c ∧ c < x0 + k) && row.getLsbD (7 - (c - x0))

/-- The first `k` pixels of a sprite row, drawn from left to right. -/
def blitPart (row : Byte) (x0 py k : Nat) (b : Display × Bool) : Display × Bool :=
  (List.range k).foldl (fun b c => if row.getLsbD (7 - c) then blitPixel b py (x0 + c) else b) b

theorem rowCovers_succ (row : Byte) (x0 py k r c : Nat) :
    rowCovers row x0 py (k + 1) r c =
      (rowCovers row x0 py k r c || row.getLsbD (7 - k) && decide (r = py ∧ c = x0 + k)) := by
  unfold rowCovers
  by_cases hc : c = x0 + k
  · subst hc
    simp [Bool.and_comm]
  · have hiff : (c < x0 + (k + 1)) ↔ c < x0 + k := by omega
    simp [hc, hiff]

theorem blitPart_succ (row : Byte) (x0 py k : Nat) (b : Display × Bool) :
    blitPart row x0 py (k + 1) b =
      if row.getLsbD (7 - k) then blitPixel (blitPart row x0 py k b) py (x0 + k)
      else blitPart row x0 py k b := by
  simp [blitPart, List.range_succ]

theorem drawn_blitPart (row : Byte) (x0 py k : Nat) (b : Display × Bool) :
    Drawn b (blitPart row x0 py k b) (rowCovers row x0 py k) := by
  induction k with
  | zero => exact drawn_nothing b fun r c => by simp [rowCovers]
  | succ k ih =>
    rw [blitPart_succ]
    cases hbit : row.getLsbD (7 - k) with
    | false => exact drawn_congr ih fun r c => by simp [rowCovers_succ, hbit]
    | true =>
      have hdisjoint : ∀ r c, rowCovers row x0 py k r c = true →
          decide (r = py ∧ c = x0 + k) = false := by
        intro r c h
        simp only [rowCovers, Bool.and_eq_true, decide_eq_true_iff] at h
        rw [decide_eq_false_iff_not]
        omega
      exact drawn_congr (drawn_trans ih (drawn_blitPixel _ py (x0 + k)) hdisjoint)
        fun r c => by simp [rowCovers_succ, hbit]

theorem drawn_blitRow (row : Byte) (x0 py : Nat) (b : Display × Bool) :
    Drawn b (blitRow row x0 py b) (rowCovers row x0 py 8) :=
  drawn_blitPart row x0 py 8 b

theorem spriteCovers_nil (x0 y0 r c : Nat) : spriteCovers [] x0 y0 r c = false := by
  simp [spriteCovers]

theorem spriteCovers_cons (row : Byte) (rows : List Byte) (x0 y0 r c : Nat) :
    spriteCovers (row :: rows) x0 y0 r c =
      (rowCovers row x0 y0 8 r c || spriteCovers rows x0 (y0 + 1) r c) := by
  unfold spriteCovers rowCovers
  by_cases hr : r = y0
  · subst hr
    simp
  · by_cases hlt : y0 + 1 ≤ r
    · have hsub : r - y0 = (r - (y0 + 1)) + 1 := by omega
      simp [hr, hlt, hsub, show y0 ≤ r by omega]
    · simp [hr, hlt, show ¬ y0 ≤ r by omega]

theorem drawn_blitRows (rows : List Byte) (x0 y0 : Nat) (b : Display × Bool) :
    Drawn b (blitRows x0 rows y0 b) (spriteCovers rows x0 y0) := by
  induction rows generalizing y0 b with
  | nil => exact drawn_nothing b (spriteCovers_nil x0 y0)
  | cons row rows ih =>
    have hdisjoint : ∀ r c, rowCovers row x0 y0 8 r c = true →
        spriteCovers rows x0 (y0 + 1) r c = false := by
      intro r c h
      simp only [rowCovers, Bool.and_eq_true, decide_eq_true_iff] at h
      simp [spriteCovers, show ¬ y0 + 1 ≤ r by omega]
    exact drawn_congr (drawn_trans (drawn_blitRow row x0 y0 b) (ih (y0 + 1) _) hdisjoint)
      (spriteCovers_cons row rows x0 y0)

/-- A sprite drawn from the wrapped position covers its pixels there, clipped at the edges. -/
theorem drawn_drawSprite (d : Display) (x y : Nat) (rows : List Byte) :
    Drawn (d, false) (Display.drawSprite d x y rows) (spriteCovers rows (x % 64) (y % 32)) :=
  drawn_blitRows rows (x % 64) (y % 32) (d, false)

theorem flagByte_eq_one_iff (f : Bool) : flagByte f = 1 ↔ f = true := by
  revert f; decide

theorem flagByte_eq_one_or_zero (f : Bool) : flagByte f = 1 ∨ flagByte f = 0 := by
  revert f; decide

/-- Settles O47: what a draw does to the buffer and the flag is `Drawn`, at the position in Vx and Vy. -/
theorem drawXorsSprite : Obligations.DrawXorsSprite := by
  intro x y n s rows covers
  have hzero : n = 0 ↔ n.toNat = 0 := BitVec.toNat_eq
  obtain ⟨hpix, hcol⟩ : Drawn (s.disp, false) (drawn x y n s) covers := by
    have h := drawn_drawSprite s.disp (s.spriteX x) (s.spriteY y) rows
    rwa [State.spriteX, State.spriteY, Nat.mod_mod, Nat.mod_mod] at h
  split
  case isTrue h =>
    have hvf : (effectOf (.drw x y n) s.advance).reg 15 = flagByte (drawn x y n s).2 :=
      State.reg_setReg_same s.advance VF (flagByte (drawn x y n s).2)
    refine completes_of_effect (if_pos (h.imp_left hzero.mp)) ⟨hpix, ?_, ?_, rfl, fun r hr => ?_,
      frame_of_eq_overwrite rfl⟩
    · rw [hvf]
      exact flagByte_eq_one_or_zero _
    · rw [hvf, flagByte_eq_one_iff, hcol]
      simp
    · exact reg_effectOf s.advance (by simpa [mayWriteReg] using hr)
  case isFalse h =>
    obtain ⟨hne, hout⟩ := not_or.mp h
    exact exec_of_fault (rangeFault_some (mt hzero.mpr hne) hout)

theorem pixel_of_lt (d : Display) {r c : Nat} (hr : r < 32) (hc : c < 64) :
    Display.pixel d r c = d[r][c] :=
  dif_pos ⟨hr, hc⟩

theorem display_ext {d e : Display}
    (h : ∀ r c, r < 32 → c < 64 → Display.pixel d r c = Display.pixel e r c) : d = e := by
  ext r hr c hc
  rw [← pixel_of_lt d hr hc, ← pixel_of_lt e hr hc, h r c hr hc]

/-- Settles O48: the two draws flip the same pixels, so each is flipped back; on a clear display the
pixels of the first draw are the covered ones. -/
theorem drawTwiceErases : Obligations.DrawTwiceErases := by
  intro d x y rows first second
  obtain ⟨hpix, hcol⟩ := drawn_drawSprite d x y rows
  obtain ⟨hpix', hcol'⟩ := drawn_drawSprite first.1 x y rows
  refine ⟨display_ext fun r c hr hc => ?_, fun hclear => ?_⟩
  · rw [hpix' r c hr hc, hpix r c hr hc, Bool.xor_assoc, Bool.xor_self, Bool.xor_false]
  · have hfirst : ∀ r c, r < 32 → c < 64 →
        Display.pixel first.1 r c = spriteCovers rows (x % 64) (y % 32) r c := by
      intro r c hr hc
      rw [hpix r c hr hc, hclear, Bool.false_xor]
    refine ⟨?_, hcol'.trans ⟨?_, ?_⟩⟩
    · rw [Bool.eq_false_iff, Ne, hcol]
      rintro (hfalse | ⟨r, c, -, -, hset, -⟩)
      · cases hfalse
      · rw [hclear] at hset
        cases hset
    · rintro (hfalse | ⟨r, c, -, -, hset, -⟩)
      · cases hfalse
      · exact ⟨r, c, hset⟩
    · rintro ⟨r, c, hset⟩
      obtain ⟨hr, hc⟩ := lt_of_pixel hset
      exact .inr ⟨r, c, hr, hc, hset, hfirst r c hr hc ▸ hset⟩

end Sys2Proof.Proofs
